-- ==== Sys2Proof/Word.lean ====
section
/-! DEFINITION. The two widths of the block: 32-bit command words and 8-bit bytes. -/

namespace Sys2Proof

/-- A command word (00_scope.md R9, 30_encoding.md R80). -/
abbrev Word := BitVec 32

/-- A framebuffer byte, a coordinate operand or a fill value (00_scope.md R9, 10_state.md R22). -/
abbrev Byte := BitVec 8

end Sys2Proof
end

