-- ==== Sys2Proof/Config.lean ====
section
/-! DEFINITION. What is fixed for one block: the geometry (00_scope.md R6), the open parameter BITPOS (R8) as a type,
and the free value the block draws from the bus (R10). -/

namespace Sys2Proof

/-- A framebuffer byte address, `16·r + c` for row `r` and byte `c` (20_memory.md R50): "no address outside 0..2047 is
ever formed", so no other address is a term. -/
abbrev Addr := Fin 2048

/-- A row or a column of the panel (00_scope.md R6). -/
abbrev Coord := Fin 128

/-- A byte column of one row (00_scope.md R6: 16 bytes a row). -/
abbrev ByteCol := Fin 16

/-- The parameter BITPOS (00_scope.md R8): entry `k` of the table is the bit that holds column `8c + k` of byte `c`.
"`BITPOS` must be a bijection": no bit position is used twice. -/
structure BitPos where
  table : Vector (Fin 8) 8
  bijective : table.toList.Nodup
deriving DecidableEq, Repr

/-- The spec's default, `BITPOS(k) = k` (00_scope.md R8). -/
def Config.defaultBitPos : BitPos := ⟨#v[0, 1, 2, 3, 4, 5, 6, 7], by decide⟩

/-- The bus's answer to one burst (00_scope.md R10, R12). -/
inductive BusAnswer where
  | ok
  | fail
deriving DecidableEq, Repr, Inhabited

/-- FREE VALUE: the answer of the bus to burst number `n` (counted from the first burst the model draws for).
No rule of the block reads it (43_panel_transport.md R183). Entry 5. -/
opaque Config.busAnswer : Nat → BusAnswer

end Sys2Proof
end

