-- ==== Sys2Proof/Syntax.lean ====
section
/-! DEFINITION. The command set (one constructor per row of spec/opcode_table.json) and the assembler's source lines. -/

namespace Sys2Proof

/-- The eight commands of the block (30_encoding.md R85), operands as the word carries them (R84). -/
inductive Instr where
  /-- WRPIX: write pixel `(x, y)`, black or white (41_framebuffer_commands.md R120). -/
  | wrpix (x y : Byte) (black : Bool)
  /-- FBFILL: write `v` to every framebuffer byte (R125). -/
  | fbfill (v : Byte)
  /-- FLUSH: send the whole framebuffer (43_panel_transport.md R174). -/
  | flush
  /-- CLEAR: clear the panel and the framebuffer (R176). -/
  | clear
  /-- DISPMODE: send the display-mode command (R178). -/
  | dispmode
  /-- TESTPAT: send the dotted-line test pattern (R180). -/
  | testpat
  /-- ENABLE: drive panel-enable high (R185). -/
  | enable
  /-- DISABLE: drive panel-enable low (R186). -/
  | disable
deriving DecidableEq, Repr

/-- One source line of the assembler (30_encoding.md R89), or one pseudo-operation (R90). Operands are the numbers as
written: whether they fit their fields is `AsmLine.wellFormed`. -/
inductive AsmLine where
  | wrpix (x y b : Nat)
  | fbfill (v : Nat)
  | flush
  | clear
  | dispmode
  | testpat
  | enable
  | disable
  /-- `.word w`: the raw word, legal or not. -/
  | word (w : Nat)
  | rect (x y w h : Nat)
  | circle (x0 y0 r b : Nat)
  | checker
deriving DecidableEq, Repr

end Sys2Proof
end

