-- ==== Sys2Proof/WellFormed.lean ====
section
/-! DEFINITION. Which source lines are well formed. An `Instr` is well formed by its types (8-bit operands and one
colour bit are exactly the fields of 30_encoding.md R81-R83, and a reserved field has no place in it), so the check
that can fail is on the assembler's lines, whose operands are numbers of any size. -/

namespace Sys2Proof

/-- The operand fits an unsigned 8-bit field (00_scope.md R9). -/
def fitsByte (n : Nat) : Bool := decide (n < 256)

/-- The operand fits the one-bit colour field: `white` = 0, `black` = 1 (30_encoding.md R89). -/
def fitsColour (n : Nat) : Bool := decide (n < 2)

/-- The raw word fits the command port (00_scope.md R9). -/
def fitsWord (n : Nat) : Bool := decide (n < 4294967296)

/-- "An assembler refuses an operand that does not fit its field" (30_encoding.md R89); the operands of RECT and CIRCLE
are unsigned 8-bit (42_drawing_pseudo_ops.md R140, R150). -/
def AsmLine.wellFormed : AsmLine → Bool
  | .wrpix x y b => fitsByte x && fitsByte y && fitsColour b
  | .fbfill v => fitsByte v
  | .flush => true
  | .clear => true
  | .dispmode => true
  | .testpat => true
  | .enable => true
  | .disable => true
  | .word w => fitsWord w
  | .rect x y w h => fitsByte x && fitsByte y && fitsByte w && fitsByte h
  | .circle x0 y0 r b => fitsByte x0 && fitsByte y0 && fitsByte r && fitsColour b
  | .checker => true

end Sys2Proof
end

