-- ==== Sys2Proof/Decode.lean ====
section
/-! DEFINITION. Decoding a command word, total on all 2^32 words (30_encoding.md R86), and the encoder. -/

namespace Sys2Proof

/-- Why a word spells no command (30_encoding.md R87). -/
inductive IllegalWord where
  /-- Opcode 0x0 or 0x9 to 0xF. -/
  | opcode
  /-- A command's opcode with a reserved bit that is not 0. -/
  | reservedBits
deriving DecidableEq, Repr

/-- What decoding a word answers. -/
inductive Decoded where
  | instr (i : Instr)
  | illegal (why : IllegalWord)
deriving DecidableEq, Repr

/-- `opcode = cmd[31:28]` (30_encoding.md R80). -/
def opcodeOf (w : Word) : BitVec 4 := w.extractLsb' 28 4

/-- `x = cmd[7:0]` (R84). -/
def fieldX (w : Word) : Byte := w.extractLsb' 0 8

/-- `y = cmd[15:8]` (R84). -/
def fieldY (w : Word) : Byte := w.extractLsb' 8 8

/-- `black = cmd[16]` (R84). -/
def fieldBlack (w : Word) : Bool := w.getLsbD 16

/-- `v = cmd[7:0]` (R84). -/
def fieldV (w : Word) : Byte := w.extractLsb' 0 8

/-- Format P (R81): bits 27:17 must be 0. -/
def decodeP (w : Word) : Decoded :=
  if w.extractLsb' 17 11 = 0#11 then .instr (.wrpix (fieldX w) (fieldY w) (fieldBlack w)) else .illegal .reservedBits

/-- Format V (R82): bits 27:8 must be 0. -/
def decodeV (w : Word) : Decoded :=
  if w.extractLsb' 8 20 = 0#20 then .instr (.fbfill (fieldV w)) else .illegal .reservedBits

/-- Format N (R83): bits 27:0 must be 0. -/
def decodeN (w : Word) (i : Instr) : Decoded :=
  if w.extractLsb' 0 28 = 0#28 then .instr i else .illegal .reservedBits

/-- The decoder: "the format follows from the opcode alone" (30_encoding.md R80, R85-R87). -/
def decode (w : Word) : Decoded :=
  match (opcodeOf w).toNat with
  | 1 => decodeP w
  | 2 => decodeV w
  | 3 => decodeN w .flush
  | 4 => decodeN w .clear
  | 5 => decodeN w .dispmode
  | 6 => decodeN w .testpat
  | 7 => decodeN w .enable
  | 8 => decodeN w .disable
  | _ => .illegal .opcode

/-- A format N word: the opcode over a reserved field of zeros (30_encoding.md R83). -/
def encodeN (op : BitVec 4) : Word := op ++ 0#28

/-- The encoder, field by field from the formats (30_encoding.md R81-R85). -/
def encode : Instr → Word
  | .wrpix x y black => 0x1#4 ++ 0#11 ++ BitVec.ofBool black ++ y ++ x
  | .fbfill v => 0x2#4 ++ 0#20 ++ v
  | .flush => encodeN 0x3#4
  | .clear => encodeN 0x4#4
  | .dispmode => encodeN 0x5#4
  | .testpat => encodeN 0x6#4
  | .enable => encodeN 0x7#4
  | .disable => encodeN 0x8#4

/-- The `match` column of the opcode map (30_encoding.md R85). -/
def rowMatch : Instr → Word
  | .wrpix _ _ _ => 0x10000000#32
  | .fbfill _ => 0x20000000#32
  | .flush => 0x30000000#32
  | .clear => 0x40000000#32
  | .dispmode => 0x50000000#32
  | .testpat => 0x60000000#32
  | .enable => 0x70000000#32
  | .disable => 0x80000000#32

/-- The `mask` column of the opcode map (30_encoding.md R85). -/
def rowMask : Instr → Word
  | .wrpix _ _ _ => 0xFFFE0000#32
  | .fbfill _ => 0xFFFFFF00#32
  | .flush => 0xFFFFFFFF#32
  | .clear => 0xFFFFFFFF#32
  | .dispmode => 0xFFFFFFFF#32
  | .testpat => 0xFFFFFFFF#32
  | .enable => 0xFFFFFFFF#32
  | .disable => 0xFFFFFFFF#32

/-- The command word whose bits are those of `w` below `nbits` and 0 above. -/
def tableWord (nbits w : Nat) : Word := BitVec.ofNat 32 (w % 2 ^ nbits)

/-- The instruction the decoder reads from a word numbered as spec/opcode_table.json numbers it. A command is one whole
32-bit word on a port (20_memory.md R59), so there is no byte order to lay out. -/
def decodeTableWord (nbits w : Nat) : Option Instr :=
  match decode (tableWord nbits w) with
  | .instr i => some i
  | .illegal _ => none

end Sys2Proof
end

