-- ==== Sys2Proof/Machine/State.lean ====
section
/-! DEFINITION. The state of the block as plain data, the reasons a step can stop, and the state after reset. -/

namespace Sys2Proof.Machine

/-- The framebuffer: the listed bytes, every other byte reading as 0x00, the reset contents (10_state.md R36). Entry 12. -/
abbrev Memory := List Host.Cell

/-- The one canonical form of a memory: addresses strictly rising and inside 0..2047 (20_memory.md R50), no entry equal
to what an unlisted address reads as. -/
abbrev Memory.wf (m : Memory) : Prop :=
  m.Pairwise (fun c d => c.1 < d.1) ∧ ∀ c ∈ m, c.1 < 2048 ∧ c.2 ≠ 0#8

/-- One event the sequencer has still to perform (43_panel_transport.md R190). -/
inductive SeqEvent where
  /-- Drive chip-select to a level (true is high). -/
  | setCS (v : Bool)
  /-- Drive panel-enable to a level. -/
  | setEN (v : Bool)
  /-- Hand one burst of bytes to the bus. -/
  | write (bytes : List Byte)
  /-- The internal step that writes `v` to all 2048 framebuffer bytes. -/
  | fbFill (v : Byte)
deriving DecidableEq, Repr

/-- One event of the observation of the outputs (10_state.md R33). -/
inductive TraceEvent where
  | setCS (v : Bool)
  | setEN (v : Bool)
  /-- The bytes the block handed to the bus and the bus's answer; which bytes arrived is not known (R184). -/
  | write (bytes : List Byte) (answer : BusAnswer)
deriving DecidableEq, Repr

/-- The sequencer (10_state.md R25): idle, or busy with accepted word `w` and the pending events `e :: rest`, at least
one (43_panel_transport.md R192). Entry 20. -/
inductive Seq where
  | idle
  | busy (w : Word) (e : SeqEvent) (rest : List SeqEvent)
deriving DecidableEq, Repr

/-- One move of the host on the command port (10_state.md R29). Entry 1. -/
inductive HostMove where
  /-- Present `w` once the block is idle, as a host does that obeys 70_reset_and_hazards.md R270. -/
  | issue (w : Word)
  /-- Present `w` at once, whatever SEQ is. -/
  | present (w : Word)
  /-- Present nothing for one step. -/
  | pause
deriving DecidableEq, Repr

/-- The two error conditions that leave a record (60_exceptions.md R220).

* `illegalCommand` (code 1): recorded by `State.raiseIllegal` in `State.faults` when a presented word spells no command
  (R222). The block goes on, so it ends no step; safe, because claims take "no fault recorded" as a premise (R223).
* `overlap` (code 2): ends the step in which a word is presented while SEQ is not IDLE (R225); raised by
  `Machine.presentWord` and by every meaning on a busy state (`Machine.acceptIdle`). Safe: "The block's response is
  undefined" and nothing can be proved past it. -/
inductive Fault where
  /-- IllegalCommand(w): recorded by `State.raiseIllegal`, never the outcome of a step; safe. -/
  | illegalCommand (w : Word)
  /-- Overlap(w): the outcome of presenting `w` to a busy block; safe. -/
  | overlap (w : Word)
deriving DecidableEq, Repr

/-- Reasons to refuse an instruction. -/
inductive Refusal where
  /-- An instruction the model gives no meaning: raised by no arm of `exec` (every command has its meaning); safe. -/
  | notModelled (mnemonic : String)
deriving DecidableEq, Repr

/-- The whole state: the block's five elements (10_state.md R22-R26), the model's two records (R33, 60_exceptions.md
R220) and the model's three arguments (00_scope.md R10). -/
structure State where
  /-- FB, the framebuffer (R22). -/
  fb : Memory
  /-- CS, the chip-select register, true is high (R23). -/
  cs : Bool
  /-- EN, the panel-enable register, true is high (R24). -/
  en : Bool
  /-- SEQ, the sequencer (R25). -/
  seq : Seq
  /-- ILL, the sticky illegal-command flag (R26). -/
  ill : Bool
  /-- The event trace, oldest first: an observation, not hardware (R33). -/
  trace : List TraceEvent
  /-- The faults recorded, oldest first (60_exceptions.md R222). Entry 3. -/
  faults : List Fault
  /-- The host's moves still to come, next first (00_scope.md R10, 10_state.md R29). Entry 1. -/
  stream : List HostMove
  /-- The number of the next burst, the argument of the free value `Config.busAnswer`. Entry 5. -/
  bursts : Nat
  /-- The parameter BITPOS of this block (00_scope.md R8); nothing changes it (20_memory.md R58). Entry 7. -/
  bitPos : BitPos
deriving DecidableEq, Repr

/-- The state after reset (10_state.md R36, 70_reset_and_hazards.md R260) of a block with parameter `bitPos`, whose host
will make the moves `stream` and whose next draw is number `bursts` (00_scope.md R10). -/
def State.resetWith (bitPos : BitPos) (stream : List HostMove) (bursts : Nat) : State where
  fb := []
  cs := false
  en := false
  seq := .idle
  ill := false
  trace := [.setEN false, .setCS false]
  faults := []
  stream := stream
  bursts := bursts
  bitPos := bitPos

/-- The machine right after reset, with the default BITPOS and nothing presented. Entries 1, 5, 7. -/
def State.reset : State := State.resetWith Config.defaultBitPos [] 0

end Sys2Proof.Machine
end

