-- ==== Sys2Proof/Machine/Ops.lean ====
section
/-! DEFINITION. The named operations over the framebuffer, the output lines, the bus and the sequencer (00_scope.md R12),
recording an illegal command, and construction. -/

namespace Sys2Proof.Machine

/-- The byte at an address; an unlisted byte reads as its reset contents 0x00 (10_state.md R36). -/
def Memory.read (m : Memory) (a : Addr) : Byte :=
  match m with
  | [] => 0#8
  | c :: rest => if c.1 = a.val then c.2 else Memory.read rest a

/-- List the byte `v` at `a`, in address order, in place of what is listed there. -/
def Memory.insert (m : Memory) (a : Addr) (v : Byte) : Memory :=
  match m with
  | [] => [(a.val, v)]
  | c :: rest =>
    if a.val < c.1 then (a.val, v) :: c :: rest
    else if c.1 = a.val then (a.val, v) :: rest
    else c :: Memory.insert rest a v

/-- List nothing at `a`. -/
def Memory.erase (m : Memory) (a : Addr) : Memory := m.filter (fun c => c.1 != a.val)

/-- Set the byte at an address; writing what an unlisted byte reads as lists nothing there. -/
def Memory.write (m : Memory) (a : Addr) (v : Byte) : Memory := if v = 0#8 then m.erase a else m.insert a v

/-- The memory whose 2048 bytes are all `v`: what the loop of 41_framebuffer_commands.md R125 leaves. -/
def Memory.fill (v : Byte) : Memory := if v = 0#8 then [] else (List.range 2048).map (fun a => (a, v))

/-- `MemRead(a, 1)` (00_scope.md R12). -/
def State.memRead (s : State) (a : Addr) : Byte := s.fb.read a

/-- `MemWrite(a, 1, v)` (00_scope.md R12). -/
def State.memWrite (s : State) (a : Addr) (v : Byte) : State := { s with fb := s.fb.write a v }

/-- `CS <- v`, recorded whether or not the level changes (00_scope.md R12, 10_state.md R33). -/
def State.setCS (s : State) (v : Bool) : State := { s with cs := v, trace := s.trace ++ [.setCS v] }

/-- `EN <- v`, recorded whether or not the level changes (00_scope.md R12, 10_state.md R33). -/
def State.setEN (s : State) (v : Bool) : State := { s with en := v, trace := s.trace ++ [.setEN v] }

/-- `BusWrite(bytes)` (00_scope.md R12): one burst; the answer is drawn and recorded, and nothing reads it
(43_panel_transport.md R183). -/
def State.busWrite (s : State) (bytes : List Byte) : State :=
  { s with trace := s.trace ++ [.write bytes (Config.busAnswer s.bursts)], bursts := s.bursts + 1 }

/-- `for a in 0..2048: MemWrite(a, 1, v)` (41_framebuffer_commands.md R125, 43_panel_transport.md R176). -/
def State.fbFill (s : State) (v : Byte) : State := { s with fb := Memory.fill v }

/-- Perform one event (43_panel_transport.md R192). -/
def State.perform (s : State) : SeqEvent → State
  | .setCS v => s.setCS v
  | .setEN v => s.setEN v
  | .write bytes => s.busWrite bytes
  | .fbFill v => s.fbFill v

/-- SEQ with a list of events still to perform: IDLE when there are none (43_panel_transport.md R192). -/
def Seq.ofPending (w : Word) : List SeqEvent → Seq
  | [] => .idle
  | e :: rest => .busy w e rest

/-- `SEQ <- BUSY(w, events)` (43_panel_transport.md R191). -/
def State.beginSend (s : State) (w : Word) (events : List SeqEvent) : State := { s with seq := Seq.ofPending w events }

/-- The sequencer step (43_panel_transport.md R192): "one step performs event `e` … when `rest` is empty the same step
sets `SEQ <- IDLE`". An idle sequencer has no step: nothing changes (entry 2). -/
def State.sequence (s : State) : State :=
  match s.seq with
  | .idle => s
  | .busy w e rest => { s.perform e with seq := Seq.ofPending w rest }

/-- The one error an idle block takes (60_exceptions.md R222): `ILL <- 1`, the fault is recorded, the word is discarded,
and nothing else changes. The block has no trap: nothing is saved and control goes nowhere (R228). -/
def State.raiseIllegal (s : State) (w : Word) : State :=
  { s with ill := true, faults := s.faults ++ [.illegalCommand w] }

/-- The port's rule for a word that spells a command (43_panel_transport.md R191): an idle block goes to `t`; for a busy
one the word is Overlap (60_exceptions.md R225). -/
def acceptIdle (w : Word) (s t : State) : Host.Outcome State Fault Refusal :=
  match s.seq with
  | .idle => .next t
  | .busy _ _ _ => .fault (.overlap w)

/-- Construction of a block whose elements hold anything, with nothing yet observed or recorded: the assignments of
70_reset_and_hazards.md R260, in its order. -/
def State.construct (s : State) : State :=
  let started := { s with trace := [], faults := [] }
  { ((started.setEN false).setCS false).fbFill 0x00#8 with seq := .idle, ill := false }

end Sys2Proof.Machine
end

