-- ==== Sys2Proof/Machine/Operands.lean ====
section
/-! DEFINITION. The operand forms: coordinates, their range check, and the place of a pixel in the framebuffer
(20_memory.md R50-R53). -/

namespace Sys2Proof.Machine

/-- `BITPOS(k)` (00_scope.md R8). -/
def bitPosAt (b : BitPos) (k : Fin 8) : Fin 8 := b.table[k]

/-- A coordinate operand: 128 and above are out of range (41_framebuffer_commands.md R121). -/
def coord? (n : Byte) : Option Coord := if h : n.toNat < 128 then some ⟨n.toNat, h⟩ else none

/-- The address of byte `c` of row `r`: `16·r + c` (20_memory.md R50). -/
def byteAddr (r : Coord) (c : ByteCol) : Addr := ⟨16 * r.val + c.val, by omega⟩

/-- `x div 8`, the byte that holds column `x` (20_memory.md R51). -/
def pixelByte (x : Coord) : ByteCol := ⟨x.val / 8, by omega⟩

/-- `BITPOS(x mod 8)`, the bit that holds column `x` (20_memory.md R52). -/
def pixelBit (b : BitPos) (x : Coord) : Fin 8 := bitPosAt b ⟨x.val % 8, by omega⟩

/-- The address of the byte that holds pixel `(x, y)`: `16·y + (x div 8)` (20_memory.md R51). -/
def pixelAddr (x y : Coord) : Addr := byteAddr y (pixelByte x)

/-- `1 << BITPOS(x mod 8)` (41_framebuffer_commands.md R120). -/
def pixelMask (b : BitPos) (x : Coord) : Byte := 1#8 <<< (pixelBit b x).val

/-- The byte after its masked bit is written: 0 for black, 1 for white (41_framebuffer_commands.md R120,
20_memory.md R53). -/
def colourByte (old mask : Byte) (black : Bool) : Byte := if black then old &&& ~~~mask else old ||| mask

/-- `pixel(x, y)`, true when the stored bit is 1 (10_state.md R34). -/
def State.pixel (s : State) (x y : Coord) : Bool := (s.memRead (pixelAddr x y)).getLsbD (pixelBit s.bitPos x).val

/-- WRPIX on coordinates in range (41_framebuffer_commands.md R120). -/
def State.writePixelAt (s : State) (x y : Coord) (black : Bool) : State :=
  s.memWrite (pixelAddr x y) (colourByte (s.memRead (pixelAddr x y)) (pixelMask s.bitPos x) black)

/-- WRPIX on operands as the word carries them: a silent no-op unless both are in range (R120, R121). -/
def State.writePixel (s : State) (x y : Byte) (black : Bool) : State :=
  match coord? x, coord? y with
  | some cx, some cy => s.writePixelAt cx cy black
  | _, _ => s

end Sys2Proof.Machine
end

