-- ==== Sys2Proof/Machine/Framebuffer.lean ====
section
/-! DEFINITION. The framebuffer commands WRPIX and FBFILL (41_framebuffer_commands.md). Both complete in the accepting
step: no event, SEQ stays IDLE (43_panel_transport.md R191). -/

namespace Sys2Proof.Machine

/-- WRPIX (41_framebuffer_commands.md R120, R121). -/
def execWrpix (x y : Byte) (black : Bool) (s : State) : Host.Outcome State Fault Refusal :=
  acceptIdle (encode (.wrpix x y black)) s (s.writePixel x y black)

/-- FBFILL (41_framebuffer_commands.md R125, R126). -/
def execFbfill (v : Byte) (s : State) : Host.Outcome State Fault Refusal :=
  acceptIdle (encode (.fbfill v)) s (s.fbFill v)

end Sys2Proof.Machine
end

