-- ==== Sys2Proof/Machine/Wire.lean ====
section
/-! DEFINITION. What goes on the wire: the row-address transform (40_row_address_transform.md), the fixed byte sequences
(00_scope.md R7) and each command's event list (43_panel_transport.md R190). -/

namespace Sys2Proof.Machine

/-- `REVERSE8(n) = {n[0], n[1], …, n[7]}`, bit 0 the most significant (40_row_address_transform.md R110). -/
def reverse8 (n : Byte) : Byte :=
  n.extractLsb' 0 1 ++ n.extractLsb' 1 1 ++ n.extractLsb' 2 1 ++ n.extractLsb' 3 1 ++
    n.extractLsb' 4 1 ++ n.extractLsb' 5 1 ++ n.extractLsb' 6 1 ++ n.extractLsb' 7 1

/-- `ROWADDR(i) = REVERSE8(i + 1)` (40_row_address_transform.md R112). -/
def rowAddr (i : Coord) : Byte := reverse8 (BitVec.ofNat 8 (i.val + 1))

/-- `START` (00_scope.md R7). -/
def startByte : Byte := 0x80#8

/-- `TRAILER` (00_scope.md R7). -/
def trailerByte : Byte := 0x00#8

/-- `CLEAR_SEQ` (00_scope.md R7). -/
def clearSeq : List Byte := [0x20#8, 0x00#8]

/-- `DISP_SEQ` (00_scope.md R7). -/
def dispSeq : List Byte := [0x00#8, 0x00#8]

/-- `TESTPAT_SEQ`, 20 bytes (00_scope.md R7). -/
def testpatSeq : List Byte := [0x80#8, 0x82#8] ++ List.replicate 16 0x33#8 ++ [0x00#8, 0x00#8]

/-- The value CLEAR fills the framebuffer with (00_scope.md R7). -/
def clearFill : Byte := 0xFF#8

/-- "the row's 16 packed buffer bytes in their stored order" (20_memory.md R56). -/
def rowBytes (m : Memory) (i : Coord) : List Byte := (List.finRange 16).map (fun c => m.read (byteAddr i c))

/-- A row record: the address byte and the row's 16 bytes (43_panel_transport.md R174). -/
def rowRecord (m : Memory) (i : Coord) : List Byte := rowAddr i :: rowBytes m i

/-- The 130 bursts of FLUSH, rows ascending (43_panel_transport.md R174). -/
def flushBursts (m : Memory) : List (List Byte) :=
  [[startByte]] ++ (List.finRange 128).map (rowRecord m) ++ [[trailerByte]]

/-- The one shape of a bracketed send: CS 1, the bursts in order, CS 0 (43_panel_transport.md R170). -/
def bracketed (bursts : List (List Byte)) : List SeqEvent :=
  [.setCS true] ++ bursts.map .write ++ [.setCS false]

/-- `EVENTS(w)` of each command, on the framebuffer at acceptance (43_panel_transport.md R190, 20_memory.md R71). -/
def events (i : Instr) (m : Memory) : List SeqEvent :=
  match i with
  | .wrpix _ _ _ => []
  | .fbfill _ => []
  | .flush => bracketed (flushBursts m)
  | .clear => bracketed [clearSeq] ++ [.fbFill clearFill]
  | .dispmode => bracketed [dispSeq]
  | .testpat => bracketed [testpatSeq]
  | .enable => [.setEN true]
  | .disable => [.setEN false]

/-- The commands that make the block busy (70_reset_and_hazards.md R270). -/
def isSend : Instr → Bool
  | .wrpix _ _ _ => false
  | .fbfill _ => false
  | .flush => true
  | .clear => true
  | .dispmode => true
  | .testpat => true
  | .enable => false
  | .disable => false

end Sys2Proof.Machine
end

