-- ==== Sys2Proof/Machine/Panel.lean ====
section
/-! DEFINITION. The commands of the frame protocol sequencer (43_panel_transport.md): the four bracketed sends, whose
acceptance loads SEQ with their events (R191), and the two line writes, which complete in the accepting step. -/

namespace Sys2Proof.Machine

/-- Acceptance of a bracketed send: `SEQ <- BUSY(w, EVENTS(w))` (43_panel_transport.md R191). -/
def acceptSend (i : Instr) (s : State) : Host.Outcome State Fault Refusal :=
  acceptIdle (encode i) s (s.beginSend (encode i) (events i s.fb))

/-- FLUSH (43_panel_transport.md R174). -/
def execFlush (s : State) : Host.Outcome State Fault Refusal := acceptSend .flush s

/-- CLEAR (43_panel_transport.md R176, R177). -/
def execClear (s : State) : Host.Outcome State Fault Refusal := acceptSend .clear s

/-- DISPMODE (43_panel_transport.md R178). -/
def execDispmode (s : State) : Host.Outcome State Fault Refusal := acceptSend .dispmode s

/-- TESTPAT (43_panel_transport.md R180). -/
def execTestpat (s : State) : Host.Outcome State Fault Refusal := acceptSend .testpat s

/-- ENABLE (43_panel_transport.md R185). -/
def execEnable (s : State) : Host.Outcome State Fault Refusal := acceptIdle (encode .enable) s (s.setEN true)

/-- DISABLE (43_panel_transport.md R186). -/
def execDisable (s : State) : Host.Outcome State Fault Refusal := acceptIdle (encode .disable) s (s.setEN false)

end Sys2Proof.Machine
end

