-- ==== Sys2Proof/Machine/Dispatch.lean ====
section
/-! DEFINITION. One arm per command: the block is presented with a word that spells it. -/

namespace Sys2Proof.Machine

def exec (i : Instr) (s : State) : Host.Outcome State Fault Refusal :=
  match i with
  | .wrpix x y black => Sys2Proof.Machine.execWrpix x y black s
  | .fbfill v => Sys2Proof.Machine.execFbfill v s
  | .flush => Sys2Proof.Machine.execFlush s
  | .clear => Sys2Proof.Machine.execClear s
  | .dispmode => Sys2Proof.Machine.execDispmode s
  | .testpat => Sys2Proof.Machine.execTestpat s
  | .enable => Sys2Proof.Machine.execEnable s
  | .disable => Sys2Proof.Machine.execDisable s

end Sys2Proof.Machine
end

