-- ==== Sys2Proof/Machine/Flags.lean ====
section
/-! DEFINITION. The flags of the block: BUSY and the status word (10_state.md R30). ILL is set by `State.raiseIllegal`
and cleared by reset alone (60_exceptions.md R231); no command writes a flag. -/

namespace Sys2Proof.Machine

/-- BUSY: 1 iff SEQ is not IDLE (10_state.md R30). -/
def State.isBusy (s : State) : Bool :=
  match s.seq with
  | .idle => false
  | .busy _ _ _ => true

/-- `STATUS` (10_state.md R30): bit 0 BUSY, bit 1 CS, bit 2 EN, bit 3 ILL, bits 31:4 zero. -/
def State.status (s : State) : Word :=
  0#28 ++ BitVec.ofBool s.ill ++ BitVec.ofBool s.en ++ BitVec.ofBool s.cs ++ BitVec.ofBool s.isBusy

/-- The events still to perform, none when idle (10_state.md R28). -/
def State.pending (s : State) : List SeqEvent :=
  match s.seq with
  | .idle => []
  | .busy _ e rest => e :: rest

end Sys2Proof.Machine
end

