-- ==== Sys2Proof/Machine/Port.lean ====
section
/-! DEFINITION. The command port (10_state.md R29): the host step, and which of the host and the sequencer moves. -/

namespace Sys2Proof.Machine

/-- The host step (43_panel_transport.md R191), in the order of 60_exceptions.md R226: Overlap while busy, the word not
decoded; then IllegalCommand; then the command. -/
def presentWord (w : Word) (s : State) : Host.Outcome State Fault Refusal :=
  match s.seq with
  | .busy _ _ _ => .fault (.overlap w)
  | .idle =>
    match decode w with
    | .illegal _ => .next (s.raiseIllegal w)
    | .instr i => exec i s

/-- The state after the host has made its next move. -/
def State.moved (s : State) : State := { s with stream := s.stream.tail }

/-- One step of the run: the host moves when its next move is to present a word now, or to issue one to an idle block;
otherwise the sequencer does (43_panel_transport.md R191, R192). Entries 1, 2. -/
def advance (s : State) : Host.Outcome State Fault Refusal :=
  match s.stream with
  | .present w :: _ => presentWord w s.moved
  | .issue w :: _ =>
    match s.seq with
    | .idle => presentWord w s.moved
    | .busy _ _ _ => .next s.sequence
  | .pause :: _ => .next s.moved.sequence
  | [] => .next s.sequence

/-- The block presented with several commands one after the other. -/
def execAll : List Instr → State → Host.Outcome State Fault Refusal
  | [], s => .next s
  | i :: rest, s =>
    match exec i s with
    | .next t => execAll rest t
    | .fault r => .fault r
    | .refused r => .refused r

/-- `s` with a word put before the host's other moves, to be presented at once. -/
def State.withNextWord (s : State) (w : Word) : State := { s with stream := .present w :: s.stream }

end Sys2Proof.Machine
end

