-- ==== Sys2Proof/Machine/Step.lean ====
section
/-! DEFINITION. One step of the machine, and the place it takes its next command word from. -/

namespace Sys2Proof.Machine

/-- One step: the host's move on the command port, or the sequencer's (43_panel_transport.md R191, R192). -/
def step (s : State) : Host.Outcome State Fault Refusal := advance s

/-- `s` with the table's word presented on the command port at the next step. Entry 15. -/
def State.withFetchWord (s : State) (nbits w : Nat) : State := s.withNextWord (tableWord nbits w)

end Sys2Proof.Machine
end

