-- ==== Sys2Proof/Machine/Drawing.lean ====
section
/-! DEFINITION. The drawing pseudo-operations, host-side expansions into WRPIX (42_drawing_pseudo_ops.md,
30_encoding.md R90). Entry 17. -/

namespace Sys2Proof.Machine

/-- `for i in a..b`: `a, a+1, …, b−1`, empty when `b ≤ a` (00_scope.md R13). -/
def forRange (a b : Nat) : List Nat := List.range' a (b - a)

/-- `trunc8(z)`, the Euclidean remainder by 256 (00_scope.md R11). -/
def trunc8 (z : Int) : Byte := BitVec.ofInt 8 z

/-- WRPIX on a point with natural coordinates below 256. -/
def plot (x y : Nat) (black : Bool) : Instr := .wrpix (BitVec.ofNat 8 x) (BitVec.ofNat 8 y) black

/-- RECT (42_drawing_pseudo_ops.md R140): the near and the far edge of each axis, clipped at 128. Sums do not wrap. -/
def rect (x y w h : Nat) : List Instr :=
  if x ≥ 128 ∨ y ≥ 128 then []
  else
    (forRange x (min (x + w) 128)).flatMap (fun i =>
        plot i y true :: (if h ≥ 1 ∧ y + h - 1 < 128 then [plot i (y + h - 1) true] else [])) ++
      (forRange y (min (y + h) 128)).flatMap (fun j =>
        plot x j true :: (if w ≥ 1 ∧ x + w - 1 < 128 then [plot (x + w - 1) j true] else []))

/-- The variables of CIRCLE's loop, unbounded integers (42_drawing_pseudo_ops.md R150). -/
structure CircleVars where
  x : Int
  y : Int
  dx : Int
  dy : Int
  err : Int
deriving DecidableEq, Repr

/-- `x <- r - 1;  y <- 0;  dx <- 1;  dy <- 1;  err <- dx - 2*r` (R150). -/
def circleStart (r : Int) : CircleVars := { x := r - 1, y := 0, dx := 1, dy := 1, err := 1 - 2 * r }

/-- The first test: if `err <= 0` (R150). -/
def circleFirst (v : CircleVars) : CircleVars :=
  if v.err ≤ 0 then { v with y := v.y + 1, err := v.err + v.dy, dy := v.dy + 2 } else v

/-- The second test, on the `err` the first left: if `err > 0` (R150, R151). -/
def circleSecond (r : Int) (v : CircleVars) : CircleVars :=
  if v.err > 0 then { v with x := v.x - 1, dx := v.dx + 2, err := v.err + (v.dx + 2) - 2 * r } else v

/-- One iteration's changes: the two tests in order (R151). -/
def circleNext (r : Int) (v : CircleVars) : CircleVars := circleSecond r (circleFirst v)

/-- The loop variables at each test of `while x >= y` that passes. Each iteration brings `x - y` down by at least one
and it starts at `r - 1`, so `r` tests are enough (Laws/Drawing.lean). -/
def circleStates (r : Int) : Nat → CircleVars → List CircleVars
  | 0, _ => []
  | fuel + 1, v => if v.x ≥ v.y then v :: circleStates r fuel (circleNext r v) else []

/-- The 8 points of one iteration, in the order of R150. -/
def circlePoints (x0 y0 : Int) (v : CircleVars) : List (Int × Int) :=
  [(x0 + v.x, y0 + v.y), (x0 + v.y, y0 + v.x), (x0 - v.y, y0 + v.x), (x0 - v.x, y0 + v.y),
    (x0 - v.x, y0 - v.y), (x0 - v.y, y0 - v.x), (x0 + v.y, y0 - v.x), (x0 + v.x, y0 - v.y)]

/-- All points of a circle as integers, before truncation (R150). -/
def circleAllPoints (x0 y0 r : Nat) : List (Int × Int) :=
  (circleStates r r (circleStart r)).flatMap (circlePoints x0 y0)

/-- CIRCLE (42_drawing_pseudo_ops.md R150): coordinates truncated "only at the point of calling `write_pixel`" (R152). -/
def circle (x0 y0 r : Nat) (black : Bool) : List Instr :=
  (circleAllPoints x0 y0 r).map (fun p => .wrpix (trunc8 p.1) (trunc8 p.2) black)

/-- CHECKER (42_drawing_pseudo_ops.md R160): pixel `(x, y)` black iff `x + y` is even, rows ascending. -/
def checker : List Instr :=
  (forRange 0 128).flatMap (fun y => (forRange 0 128).map (fun x => plot x y ((x + y) % 2 == 0)))

/-- A list of commands as the moves of a host that waits for each to complete (70_reset_and_hazards.md R270). -/
def hostMoves (is : List Instr) : List HostMove := is.map (fun i => .issue (encode i))

end Sys2Proof.Machine
end

