-- ==== Sys2Proof/Machine/Assembler.lean ====
section
/-! DEFINITION. The assembler (30_encoding.md R89, R90): source lines to command words, and source text to lines. It is
the host's tool; no part of the block. Entry 16. -/

namespace Sys2Proof.Machine

/-- The words of a well-formed line, none for a line the assembler refuses (30_encoding.md R89, R90). -/
def assemble (l : AsmLine) : Option (List Word) :=
  if l.wellFormed then
    some (match l with
      | .wrpix x y b => [encode (plot x y (b == 1))]
      | .fbfill v => [encode (.fbfill (BitVec.ofNat 8 v))]
      | .flush => [encode .flush]
      | .clear => [encode .clear]
      | .dispmode => [encode .dispmode]
      | .testpat => [encode .testpat]
      | .enable => [encode .enable]
      | .disable => [encode .disable]
      | .word w => [BitVec.ofNat 32 w]
      | .rect x y w h => (rect x y w h).map encode
      | .circle x0 y0 r b => (circle x0 y0 r (b == 1)).map encode
      | .checker => checker.map encode)
  else none

/-- The value of a digit character in a base up to 16. -/
def digit? (base : Nat) (c : Char) : Option Nat :=
  let n := c.toNat
  let d := if 48 ≤ n ∧ n ≤ 57 then n - 48
    else if 65 ≤ n ∧ n ≤ 70 then n - 55
    else if 97 ≤ n ∧ n ≤ 102 then n - 87
    else 16
  if d < base then some d else none

/-- A run of digits read after the value `acc`. -/
def digits? (base : Nat) : Nat → List Char → Option Nat
  | acc, [] => some acc
  | acc, c :: rest =>
    match digit? base c with
    | some d => digits? base (acc * base + d) rest
    | none => none

/-- A number "in decimal or `0x` hexadecimal" (30_encoding.md R89). -/
def number? : List Char → Option Nat
  | [] => none
  | '0' :: 'x' :: c :: rest => digits? 16 0 (c :: rest)
  | c :: rest => digits? 10 0 (c :: rest)

/-- A colour operand: a number, or the names `white` = 0, `black` = 1 (30_encoding.md R89). -/
def colour? (cs : List Char) : Option Nat :=
  if cs = ['w', 'h', 'i', 't', 'e'] then some 0
  else if cs = ['b', 'l', 'a', 'c', 'k'] then some 1
  else number? cs

/-- A piece of text without the spaces around it. -/
def trimSpaces (cs : List Char) : List Char :=
  ((cs.dropWhile (· == ' ')).reverse.dropWhile (· == ' ')).reverse

/-- The pieces between commas, each without the spaces around it. -/
def operandTexts : List Char → List Char → List (List Char)
  | acc, [] => [trimSpaces acc.reverse]
  | acc, c :: rest =>
    if c = ',' then trimSpaces acc.reverse :: operandTexts [] rest else operandTexts (c :: acc) rest

/-- One source line: the mnemonic in upper case, then the operands (30_encoding.md R89, R90). -/
def parseLine (text : List Char) : Option AsmLine :=
  let line := trimSpaces text
  let mnemonic := line.takeWhile (· != ' ')
  let tail := trimSpaces (line.dropWhile (· != ' '))
  let operands := if tail = [] then [] else operandTexts [] tail
  if mnemonic = ['W', 'R', 'P', 'I', 'X'] then
    match operands with
    | [x, y, b] => do return .wrpix (← number? x) (← number? y) (← colour? b)
    | _ => none
  else if mnemonic = ['F', 'B', 'F', 'I', 'L', 'L'] then
    match operands with
    | [v] => do return .fbfill (← number? v)
    | _ => none
  else if mnemonic = ['.', 'w', 'o', 'r', 'd'] then
    match operands with
    | [w] => do return .word (← number? w)
    | _ => none
  else if mnemonic = ['R', 'E', 'C', 'T'] then
    match operands with
    | [x, y, w, h] => do return .rect (← number? x) (← number? y) (← number? w) (← number? h)
    | _ => none
  else if mnemonic = ['C', 'I', 'R', 'C', 'L', 'E'] then
    match operands with
    | [x0, y0, r, b] => do return .circle (← number? x0) (← number? y0) (← number? r) (← colour? b)
    | _ => none
  else if operands ≠ [] then none
  else if mnemonic = ['F', 'L', 'U', 'S', 'H'] then some .flush
  else if mnemonic = ['C', 'L', 'E', 'A', 'R'] then some .clear
  else if mnemonic = ['D', 'I', 'S', 'P', 'M', 'O', 'D', 'E'] then some .dispmode
  else if mnemonic = ['T', 'E', 'S', 'T', 'P', 'A', 'T'] then some .testpat
  else if mnemonic = ['E', 'N', 'A', 'B', 'L', 'E'] then some .enable
  else if mnemonic = ['D', 'I', 'S', 'A', 'B', 'L', 'E'] then some .disable
  else if mnemonic = ['C', 'H', 'E', 'C', 'K', 'E', 'R'] then some .checker
  else none

end Sys2Proof.Machine
end

