-- ==== Sys2Proof/Machine/BigStep.lean ====
section
/-! DEFINITION. Each command's rule applied in one step (43_panel_transport.md R193), from the pseudocode of its own rule:
FLUSH reads the framebuffer row by row during the frame (the other choice of 20_memory.md R71). The step form of
Machine/Panel.lean is the machine; this is what it is compared with. -/

namespace Sys2Proof.Machine

/-- FLUSH's pseudocode (43_panel_transport.md R174). -/
def State.wholeFlush (s : State) : State :=
  let started := (s.setCS true).busWrite [startByte]
  let framed := (List.finRange 128).foldl (fun t i => t.busWrite (rowAddr i :: rowBytes t.fb i)) started
  (framed.busWrite [trailerByte]).setCS false

/-- CLEAR's pseudocode (43_panel_transport.md R176). -/
def State.wholeClear (s : State) : State :=
  let sent := ((s.setCS true).busWrite clearSeq).setCS false
  (List.finRange 2048).foldl (fun t a => t.memWrite a clearFill) sent

/-- DISPMODE's pseudocode (43_panel_transport.md R178). -/
def State.wholeDispmode (s : State) : State := ((s.setCS true).busWrite dispSeq).setCS false

/-- TESTPAT's pseudocode (43_panel_transport.md R180). -/
def State.wholeTestpat (s : State) : State := ((s.setCS true).busWrite testpatSeq).setCS false

/-- FBFILL's pseudocode (41_framebuffer_commands.md R125). -/
def State.wholeFbfill (s : State) (v : Byte) : State :=
  (List.finRange 2048).foldl (fun t a => t.memWrite a v) s

/-- A command's rule applied in one step. -/
def State.whole (s : State) : Instr → State
  | .wrpix x y black => s.writePixel x y black
  | .fbfill v => s.wholeFbfill v
  | .flush => s.wholeFlush
  | .clear => s.wholeClear
  | .dispmode => s.wholeDispmode
  | .testpat => s.wholeTestpat
  | .enable => s.setEN true
  | .disable => s.setEN false

end Sys2Proof.Machine
end

