-- ==== Sys2Proof/Safety.lean ====
section
/-! DEFINITION. What claims are stated in: runs, clean states, the bursts seen in a trace, and the invariant of the block. -/

namespace Sys2Proof.Machine

/-- `n` steps of the machine, stopping at the first fault. -/
def run (n : Nat) (s : State) : Host.Outcome State Fault Refusal := Host.Core.run Sys2Proof.core n s

/-- "`ILL = 0` and no fault recorded", the premise of claims (60_exceptions.md R223). -/
def State.Clean (s : State) : Prop := s.ill = false ∧ s.faults = []

/-- A safe run: no step of it ends in a fault or a refusal, and it leaves nothing recorded. -/
def SafeRun (n : Nat) (s : State) : Prop := ∃ t, run n s = .next t ∧ t.Clean

/-- The host presents nothing while the block is busy: it has made all its moves, or waits to issue the next
(70_reset_and_hazards.md R270). -/
def State.HostWaits (s : State) : Prop := s.stream = [] ∨ ∃ w rest, s.stream = .issue w :: rest

/-- Every word the host will put on the command port spells a command: the stream holds no illegal word
(60_exceptions.md R223). -/
def State.HostSpells (s : State) : Prop :=
  ∀ m ∈ s.stream, ∀ w, m = .present w ∨ m = .issue w → ∃ i, decode w = .instr i

/-- Along the whole run from `s`, the host never presents a word while SEQ is not IDLE
(70_reset_and_hazards.md R270). -/
def State.HostObeys (s : State) : Prop :=
  ∀ (n : Nat) (t : State), run n s = .next t → t.seq ≠ .idle → ∀ w rest, t.stream ≠ .present w :: rest

/-- The bytes of each burst of a trace, in order. -/
def burstsOf : List TraceEvent → List (List Byte)
  | [] => []
  | .write bytes _ :: rest => bytes :: burstsOf rest
  | .setCS _ :: rest => burstsOf rest
  | .setEN _ :: rest => burstsOf rest

/-- A trace event without the bus's answer. -/
def TraceEvent.sent : TraceEvent → SeqEvent
  | .setCS v => .setCS v
  | .setEN v => .setEN v
  | .write bytes _ => .write bytes

/-- The lines' levels `(CS, EN)` after a trace, from the levels before it; none if the trace breaks a rule of the wire:
a burst while CS = 0 (43_panel_transport.md R171), an empty burst (10_state.md R31), or an EN change inside a send (R170). -/
def lineLevels : Bool × Bool → List TraceEvent → Option (Bool × Bool)
  | levels, [] => some levels
  | levels, .setCS v :: rest => lineLevels (v, levels.2) rest
  | levels, .setEN v :: rest => if levels.1 then none else lineLevels (levels.1, v) rest
  | levels, .write bytes _ :: rest => if levels.1 && !bytes.isEmpty then lineLevels levels rest else none

/-- The two states differ at most in what the bus answered: in the answers the trace records and in which draws are
next. -/
def AgreeButForAnswers (s t : State) : Prop :=
  s.trace.map TraceEvent.sent = t.trace.map TraceEvent.sent ∧ s = { t with trace := s.trace, bursts := s.bursts }

/-- The level of CS after a list of events that starts with CS low. -/
def csAfter (es : List SeqEvent) : Bool :=
  es.foldl (fun v e => match e with
    | .setCS u => u
    | .setEN _ => v
    | .write _ => v
    | .fbFill _ => v) false

/-- The sequencer agrees with its command and the lines: idle with CS low (10_state.md R37), or busy with what is left of
the events of a bracketed send, on the framebuffer as it is now (43_panel_transport.md R190, 20_memory.md R71). -/
def State.SeqConsistent (s : State) : Prop :=
  match s.seq with
  | .idle => s.cs = false
  | .busy w e rest =>
    ∃ i performed, isSend i = true ∧ w = encode i ∧ events i s.fb = performed ++ e :: rest ∧ s.cs = csAfter performed

/-- The invariant of the block. -/
structure State.Inv (s : State) : Prop where
  /-- The framebuffer keeps its canonical form. -/
  memory : s.fb.wf
  /-- SEQ, CS and the pending events agree. -/
  sequencer : s.SeqConsistent
  /-- The trace keeps the rules of the wire and ends at the levels CS and EN drive (10_state.md R23, R24, R33). -/
  wire : lineLevels (false, false) s.trace = some (s.cs, s.en)
  /-- ILL is set exactly when a fault is recorded (60_exceptions.md R222, R231). -/
  flag : s.ill = true ↔ s.faults ≠ []
  /-- Only IllegalCommand is ever recorded: Overlap ends the run (60_exceptions.md R225). -/
  recorded : ∀ f ∈ s.faults, ∃ w, f = .illegalCommand w

end Sys2Proof.Machine
end

