-- ==== Sys2Proof/Certificates/Slice0/Obligations.lean ====
section
/-! DEFINITION. The statements for the provers, from the numbered rules of spec/. A run of `n` steps is `run n`; a host
that obeys 70_reset_and_hazards.md R270 is `State.HostWaits`. -/

open Sys2Proof Sys2Proof.Machine

/-! Encoding (30_encoding.md, decisions D2 and D4 of 92_eei_decisions.md). -/

/-- Decoding an encoded command gives it back, at every value of every operand (from R81-R86). -/
def Obligations.DecodeOfEncodeGivesTheCommand : Prop := ∀ i : Instr, decode (encode i) = .instr i

/-- A word that decodes to a command is that command's encoding: each command has one word and each legal word one
command (from R81-R86). -/
def Obligations.EncodeOfDecodeGivesTheWord : Prop := ∀ (w : Word) (i : Instr), decode w = .instr i → encode i = w

/-- The opcode map: a word decodes to a row's command exactly when `(cmd & mask) = match` (R85). -/
def Obligations.OpcodeMapSelectsEachCommand : Prop :=
  ∀ w : Word,
    ((∃ x y b, decode w = .instr (.wrpix x y b)) ↔ w &&& 0xFFFE0000#32 = 0x10000000#32) ∧
    ((∃ v, decode w = .instr (.fbfill v)) ↔ w &&& 0xFFFFFF00#32 = 0x20000000#32) ∧
    (decode w = .instr .flush ↔ w &&& 0xFFFFFFFF#32 = 0x30000000#32) ∧
    (decode w = .instr .clear ↔ w &&& 0xFFFFFFFF#32 = 0x40000000#32) ∧
    (decode w = .instr .dispmode ↔ w &&& 0xFFFFFFFF#32 = 0x50000000#32) ∧
    (decode w = .instr .testpat ↔ w &&& 0xFFFFFFFF#32 = 0x60000000#32) ∧
    (decode w = .instr .enable ↔ w &&& 0xFFFFFFFF#32 = 0x70000000#32) ∧
    (decode w = .instr .disable ↔ w &&& 0xFFFFFFFF#32 = 0x80000000#32)

/-- Operands are the word's fields unchanged: `x = cmd[7:0]`, `y = cmd[15:8]`, `black = cmd[16]`, `v = cmd[7:0]` (R84). -/
def Obligations.OperandsComeFromTheirFields : Prop :=
  ∀ w : Word,
    (∀ x y b, decode w = .instr (.wrpix x y b) →
      x.toNat = w.toNat % 256 ∧ y.toNat = w.toNat / 256 % 256 ∧ (b = true ↔ w.toNat / 65536 % 2 = 1)) ∧
    (∀ v, decode w = .instr (.fbfill v) → v.toNat = w.toNat % 256)

/-- The illegal words are exactly those R87 lists. -/
def Obligations.IllegalWordsAreThoseListed : Prop :=
  ∀ w : Word, (∃ why, decode w = .illegal why) ↔
    (w.toNat / 2 ^ 28 = 0 ∨ 9 ≤ w.toNat / 2 ^ 28 ∨
      (w.toNat / 2 ^ 28 = 1 ∧ w.toNat / 2 ^ 17 % 2 ^ 11 ≠ 0) ∨
      (w.toNat / 2 ^ 28 = 2 ∧ w.toNat / 2 ^ 8 % 2 ^ 20 ≠ 0) ∨
      (3 ≤ w.toNat / 2 ^ 28 ∧ w.toNat / 2 ^ 28 ≤ 8 ∧ w.toNat % 2 ^ 28 ≠ 0))

/-- The worked encodings of R91. -/
def Obligations.WorkedWordsDecode : Prop :=
  decode 0x10010000#32 = .instr (.wrpix 0#8 0#8 true) ∧
  decode 0x10010305#32 = .instr (.wrpix 5#8 3#8 true) ∧
  decode 0x100103C8#32 = .instr (.wrpix 200#8 3#8 true) ∧
  decode 0x10007F7F#32 = .instr (.wrpix 127#8 127#8 false) ∧
  decode 0x200000FF#32 = .instr (.fbfill 0xFF#8) ∧
  decode 0x20000000#32 = .instr (.fbfill 0#8) ∧
  (∃ why, decode 0x10020000#32 = .illegal why) ∧
  (∃ why, decode 0x00000000#32 = .illegal why)

/-- The assembler emits the words of R89's table, and refuses an operand that does not fit its field (decision D2). That
`.word` refuses a number of 2^32 or more is the model's choice, entry 16. -/
def Obligations.AssemblerEmitsTheTable : Prop :=
  (∀ x y b, assemble (.wrpix x y b) =
    if x < 256 ∧ y < 256 ∧ b < 2 then some [BitVec.ofNat 32 (0x1 <<< 28 ||| b <<< 16 ||| y <<< 8 ||| x)] else none) ∧
  (∀ v, assemble (.fbfill v) = if v < 256 then some [BitVec.ofNat 32 (0x2 <<< 28 ||| v)] else none) ∧
  (∀ w, assemble (.word w) = if w < 2 ^ 32 then some [BitVec.ofNat 32 w] else none) ∧
  assemble .flush = some [0x30000000#32] ∧ assemble .clear = some [0x40000000#32] ∧
  assemble .dispmode = some [0x50000000#32] ∧ assemble .testpat = some [0x60000000#32] ∧
  assemble .enable = some [0x70000000#32] ∧ assemble .disable = some [0x80000000#32]

/-! Reset, parameters and the status port. -/

/-- Reset leaves the table of 10_state.md R36, whatever the parameters are (SEQ, ILL and STATUS by decisions D5, D12). -/
def Obligations.ResetLeavesTheTable : Prop :=
  ∀ (b : BitPos) (moves : List HostMove) (n : Nat),
    (∀ a, (State.resetWith b moves n).memRead a = 0x00#8) ∧ (State.resetWith b moves n).cs = false ∧
    (State.resetWith b moves n).en = false ∧ (State.resetWith b moves n).seq = .idle ∧
    (State.resetWith b moves n).ill = false ∧ (State.resetWith b moves n).status = 0x00000000#32

/-- Construction drives EN low, then CS low, and zeroes the framebuffer, whatever the block's elements held
(70_reset_and_hazards.md R260; the order of the two events is decision D12). -/
def Obligations.ConstructionForgetsWhatWasThere : Prop :=
  ∀ s : State, s.construct = State.resetWith s.bitPos s.stream s.bursts ∧
    s.construct.trace = [.setEN false, .setCS false]

/-- The status word: BUSY, CS, EN, ILL in bits 0 to 3, zero above (10_state.md R30, decision D5). -/
def Obligations.StatusWordShowsTheState : Prop :=
  ∀ s : State, (s.status.getLsbD 0 = true ↔ s.seq ≠ .idle) ∧ s.status.getLsbD 1 = s.cs ∧ s.status.getLsbD 2 = s.en ∧
    s.status.getLsbD 3 = s.ill ∧ ∀ k, 4 ≤ k → s.status.getLsbD k = false

/-- BITPOS is a bijection and its default is the identity (00_scope.md R8, decision D6; the reset value of the field is
the model's choice, entry 7, and this says nothing of it). -/
def Obligations.BitPosIsABijection : Prop :=
  (∀ b : BitPos, Function.Bijective (bitPosAt b)) ∧ ∀ k, bitPosAt Config.defaultBitPos k = k

/-- Nothing changes BITPOS at run time (20_memory.md R58). -/
def Obligations.BitPosNeverChanges : Prop := ∀ (n : Nat) (s t : State), run n s = .next t → t.bitPos = s.bitPos

/-! The row-address transform (40_row_address_transform.md). -/

/-- REVERSE8 reverses the 8 bits end to end, is an involution, and so a bijection (R110, R111). -/
def Obligations.ReverseIsEndToEnd : Prop :=
  (∀ (n : Byte) (i : Nat), i ≤ 7 → (reverse8 n).getLsbD (7 - i) = n.getLsbD i) ∧ (∀ n, reverse8 (reverse8 n) = n) ∧
    Function.Bijective reverse8

/-- The row-address byte is the 1-based row index with its bits reversed, and it is the first byte of that row's record
(R112). -/
def Obligations.RowAddressIsTheReversedIndex : Prop :=
  ∀ i : Coord, (∀ k, k ≤ 7 → (rowAddr i).getLsbD (7 - k) = (i.val + 1).testBit k) ∧
    rowAddr i = reverse8 (BitVec.ofNat 8 (i.val + 1)) ∧ ∀ m, (rowRecord m i).head? = some (rowAddr i)

/-- The 128 row addresses are distinct, none is 0, and row 0's is the start byte (from R113). -/
def Obligations.RowAddressesAreDistinct : Prop :=
  Function.Injective rowAddr ∧ (∀ i, rowAddr i ≠ 0#8) ∧ rowAddr 0 = startByte ∧ rowAddr 127 = 0x01#8

/-! The framebuffer commands (41_framebuffer_commands.md). -/

/-- WRPIX on an idle block completes: in range it changes bit BITPOS(x mod 8) of byte 16·y + x div 8, to 0 for black and
1 for white; every other byte, and everything but the framebuffer, is as before, and out of range all of it (R120, with
the word of format P). -/
def Obligations.WrpixWritesOneBit : Prop :=
  (∀ (x y : Byte) (black : Bool),
    decode (0x1#4 ++ 0#11 ++ BitVec.ofBool black ++ y ++ x) = .instr (.wrpix x y black)) ∧
  ∀ (s : State) (x y : Byte) (black : Bool), s.seq = .idle →
    ∃ t, exec (.wrpix x y black) s = .next t ∧ t = { s with fb := t.fb } ∧
      ∀ a : Addr, t.memRead a =
        if x.toNat < 128 ∧ y.toNat < 128 ∧ a.val = 16 * y.toNat + x.toNat / 8 then
          if black then s.memRead a &&& ~~~(1#8 <<< (bitPosAt s.bitPos (Fin.ofNat 8 x.toNat)).val)
          else s.memRead a ||| (1#8 <<< (bitPosAt s.bitPos (Fin.ofNat 8 x.toNat)).val)
        else s.memRead a

/-- WRPIX with a coordinate of 128 or more has no effect on any state and is no error (R121). -/
def Obligations.WrpixOutOfRangeIsSilent : Prop :=
  ∀ (s : State) (x y : Byte) (black : Bool), s.seq = .idle → 128 ≤ x.toNat ∨ 128 ≤ y.toNat →
    exec (.wrpix x y black) s = .next s

/-- The read-back law: the written pixel is 0 for black and 1 for white, every other pixel keeps its value, and out of
range the framebuffer is unchanged (R123, 20_memory.md R55). -/
def Obligations.PixelReadsBackAndOthersKeep : Prop :=
  ∀ (s : State) (x y : Byte) (black : Bool), s.seq = .idle →
    ∃ t, exec (.wrpix x y black) s = .next t ∧
      (∀ i j : Coord, t.pixel i j = if i.val = x.toNat ∧ j.val = y.toNat then !black else s.pixel i j) ∧
      (128 ≤ x.toNat ∨ 128 ≤ y.toNat → t.fb = s.fb)

/-- FBFILL on an idle block completes with every byte at `v` and nothing but the framebuffer changed (R125, with the word
of format V). -/
def Obligations.FbfillWritesEveryByte : Prop :=
  (∀ v : Byte, decode (0x2#4 ++ 0#20 ++ v) = .instr (.fbfill v)) ∧
  ∀ (s : State) (v : Byte), s.seq = .idle →
    ∃ t, exec (.fbfill v) s = .next t ∧ t = { s with fb := t.fb } ∧ ∀ a, t.memRead a = v

/-- WRPIX and FBFILL run the same whatever EN and CS are, and touch neither the lines nor the bus (R128). -/
def Obligations.FramebufferCommandsIgnoreTheLines : Prop :=
  ∀ (s : State) (i : Instr) (cs en : Bool), s.seq = .idle → ((∃ x y b, i = .wrpix x y b) ∨ ∃ v, i = .fbfill v) →
    ∃ t, exec i s = .next t ∧ t.cs = s.cs ∧ t.en = s.en ∧ t.trace = s.trace ∧ t.bursts = s.bursts ∧
      exec i { s with cs := cs, en := en } = .next { t with cs := cs, en := en }

/-! The panel commands (43_panel_transport.md). -/

/-- Acceptance of a bracketed send: SEQ becomes busy with the word and its events, and nothing else changes (R191,
decisions D10, D25). -/
def Obligations.SendsAreAccepted : Prop :=
  ∀ (s : State) (i : Instr), s.seq = .idle → isSend i = true →
    ∃ t e rest, exec i s = .next t ∧ events i s.fb = e :: rest ∧ t = { s with seq := .busy (encode i) e rest }

/-- FLUSH: accepted by an idle block, it performs its 132 events and changes nothing else but CS, which ends low (R174). -/
def Obligations.FlushSendsTheFrame : Prop :=
  decode 0x30000000#32 = .instr .flush ∧
  ∀ s : State, s.seq = .idle → s.HostWaits →
    ∃ t u sent, exec .flush s = .next t ∧ run 132 t = .next u ∧
      u = { s with cs := false, trace := s.trace ++ sent, bursts := s.bursts + 130 } ∧
      sent.map TraceEvent.sent =
        [.setCS true, .write [0x80#8]] ++
        (List.finRange 128).map (fun i =>
          .write (reverse8 (BitVec.ofNat 8 (i.val + 1)) :: (List.finRange 16).map (fun c => s.memRead (byteAddr i c)))) ++
        [.write [0x00#8], .setCS false]

/-- FLUSH's byte-count law: 130 bursts, 2178 bytes, byte 0 = 0x80, byte 2177 = 0x00, byte 1 + 17·i the row address, and
bytes 2 + 17·i to 17 + 17·i the row's bytes (R175, R174). -/
def Obligations.FlushByteStream : Prop :=
  ∀ s : State, s.seq = .idle → s.HostWaits →
    ∃ t u sent, exec .flush s = .next t ∧ run 132 t = .next u ∧ u.trace = s.trace ++ sent ∧
      (burstsOf sent).length = 130 ∧ (burstsOf sent).flatten.length = 2178 ∧
      (burstsOf sent).flatten[0]? = some 0x80#8 ∧ (burstsOf sent).flatten[2177]? = some 0x00#8 ∧
      (∀ i : Coord, (burstsOf sent).flatten[1 + i.val * 17]? = some (reverse8 (BitVec.ofNat 8 (i.val + 1)))) ∧
      ∀ (i : Coord) (c : ByteCol), (burstsOf sent).flatten[2 + i.val * 17 + c.val]? = some (s.memRead (byteAddr i c))

/-- CLEAR: accepted by an idle block, it sends 20 00 in one bracket whatever the bus answers, and then every framebuffer
byte is FF (R176). -/
def Obligations.ClearSendsThenFills : Prop :=
  decode 0x40000000#32 = .instr .clear ∧
  ∀ s : State, s.seq = .idle → s.HostWaits →
    ∃ t u answer, exec .clear s = .next t ∧ run 4 t = .next u ∧
      u = { s with fb := u.fb, cs := false, bursts := s.bursts + 1,
                   trace := s.trace ++ [.setCS true, .write [0x20#8, 0x00#8] answer, .setCS false] } ∧
      ∀ a, u.memRead a = 0xFF#8

/-- CLEAR's fill is the last thing it does: after the bracket is closed the framebuffer is still the old one (R177,
decision D11). -/
def Obligations.ClearFillsAfterTheBracket : Prop :=
  ∀ s : State, s.seq = .idle → s.HostWaits →
    ∃ t u, exec .clear s = .next t ∧ run 3 t = .next u ∧ u.fb = s.fb ∧ u.cs = false ∧ u.isBusy = true ∧
      u.pending = [.fbFill 0xFF#8]

/-- DISPMODE: 00 00 in one bracket, the framebuffer and EN untouched (R178). -/
def Obligations.DispmodeSends : Prop :=
  decode 0x50000000#32 = .instr .dispmode ∧
  ∀ s : State, s.seq = .idle → s.HostWaits →
    ∃ t u answer, exec .dispmode s = .next t ∧ run 3 t = .next u ∧
      u = { s with cs := false, bursts := s.bursts + 1,
                   trace := s.trace ++ [.setCS true, .write [0x00#8, 0x00#8] answer, .setCS false] }

/-- TESTPAT: its 20 fixed bytes in one bracket, the framebuffer and EN untouched (R180, decision D16). -/
def Obligations.TestpatSends : Prop :=
  decode 0x60000000#32 = .instr .testpat ∧
  ∀ s : State, s.seq = .idle → s.HostWaits →
    ∃ t u answer, exec .testpat s = .next t ∧ run 3 t = .next u ∧
      u = { s with cs := false, bursts := s.bursts + 1,
                   trace := s.trace ++ [.setCS true,
                     .write ([0x80#8, 0x82#8] ++ List.replicate 16 0x33#8 ++ [0x00#8, 0x00#8]) answer, .setCS false] }

/-- ENABLE completes at acceptance: EN is 1, SetEN(1) is recorded whatever EN was, nothing else changes; from reset STATUS
is then 4 (R185). -/
def Obligations.EnableDrivesTheLineHigh : Prop :=
  decode 0x70000000#32 = .instr .enable ∧
  (∀ s : State, s.seq = .idle →
    exec .enable s = .next { s with en := true, trace := s.trace ++ [.setEN true] }) ∧
  ∃ t, exec .enable State.reset = .next t ∧ t.status = 0x00000004#32

/-- DISABLE completes at acceptance: EN is 0, SetEN(0) is recorded whatever EN was, nothing else changes; after ENABLE
from reset STATUS is then 0 (R186). -/
def Obligations.DisableDrivesTheLineLow : Prop :=
  decode 0x80000000#32 = .instr .disable ∧
  (∀ s : State, s.seq = .idle →
    exec .disable s = .next { s with en := false, trace := s.trace ++ [.setEN false] }) ∧
  ∃ t u, exec .enable State.reset = .next t ∧ exec .disable t = .next u ∧ u.status = 0x00000000#32

/-- Every bracketed send has one shape: CS high with the first step, then only the bursts its command lists, in that
order, with CS high, the framebuffer and EN untouched and the block busy, then CS low; CLEAR alone has an event after
that, its fill (R170). -/
def Obligations.EverySendIsBracketed : Prop :=
  ∀ (s : State) (i : Instr), s.seq = .idle → s.HostWaits → isSend i = true →
    ∃ t bursts, exec i s = .next t ∧ bursts ≠ [] ∧ [] ∉ bursts ∧
      events i s.fb = bracketed bursts ++ (if i = .clear then [.fbFill clearFill] else []) ∧
      (∀ k, k ≤ bursts.length → ∃ u sent, run (k + 1) t = .next u ∧ u.cs = true ∧ u.isBusy = true ∧ u.fb = s.fb ∧
        u.en = s.en ∧ u.trace = s.trace ++ .setCS true :: sent ∧
        sent.map TraceEvent.sent = (bursts.take k).map SeqEvent.write) ∧
      ∃ u sent, run (bursts.length + 2) t = .next u ∧ u.cs = false ∧ u.fb = s.fb ∧ u.en = s.en ∧
        u.trace = s.trace ++ .setCS true :: sent ++ [.setCS false] ∧
        sent.map TraceEvent.sent = bursts.map SeqEvent.write

/-- FLUSH, CLEAR, DISPMODE and TESTPAT perform the same events whether EN is 0 or 1 (R187). -/
def Obligations.SendsIgnoreEnable : Prop :=
  ∀ (s t u : State) (i : Instr) (en : Bool) (n : Nat), s.stream = [] → isSend i = true → exec i s = .next t →
    run n t = .next u →
    ∃ t', exec i { s with en := en } = .next t' ∧ run n t' = .next { u with en := en }

/-- The bus's answers influence nothing but the answers recorded: states that agree but for answers run alike, for any
number of steps and any moves of the host (R183, decision D9, and R224; the free value is entry 5). -/
def Obligations.BusAnswersInfluenceNothing : Prop :=
  ∀ (n : Nat) (s t : State), AgreeButForAnswers s t →
    (∀ s', run n s = .next s' → ∃ t', run n t = .next t' ∧ AgreeButForAnswers s' t') ∧
    (∀ r, run n s = .fault r → run n t = .fault r)

/-! The step semantics (43_panel_transport.md, section 3). -/

/-- A step runs the decoded command: when the host's next move presents or issues a word to an idle block and the word
decodes to `i`, the step is `exec i`, the move used up (R191; the form of the moves is entry 1). -/
def Obligations.StepRunsTheDecodedCommand : Prop :=
  ∀ (s : State) (w : Word) (rest : List HostMove) (i : Instr), s.seq = .idle → decode w = .instr i →
    s.stream = .present w :: rest ∨ s.stream = .issue w :: rest → step s = exec i { s with stream := rest }

/-- The next step after `withFetchWord` runs the word placed (entry 15). -/
def Obligations.FetchedWordRuns : Prop :=
  ∀ (s : State) (nbits w : Nat) (i : Instr), s.seq = .idle → decodeTableWord nbits w = some i →
    step (s.withFetchWord nbits w) = exec i s

/-- A busy block whose host waits completes: with `n` events pending it is busy for `n` steps and idle after them, with
CLEAR, DISPMODE, TESTPAT and FLUSH having 4, 3, 3 and 132 (R194, 70_reset_and_hazards.md R276; that the bus always
answers is decision D9, entry 6). -/
def Obligations.EveryCommandCompletes : Prop :=
  (∀ s : State, s.HostWaits →
    (∀ k, k < s.pending.length → ∃ u, run k s = .next u ∧ u.isBusy = true) ∧
    ∃ u, run s.pending.length s = .next u ∧ u.seq = .idle) ∧
  ∀ m : Memory, (events .flush m).length = 132 ∧ (events .clear m).length = 4 ∧ (events .dispmode m).length = 3 ∧
    (events .testpat m).length = 3

/-- Big-step equivalence: accepting a command and running it to completion gives the state of its rule applied in one
step, FBFILL and CLEAR's fill as loops of single-byte writes, FLUSH reading the framebuffer during the frame (R193,
20_memory.md R71, decisions D22, D29). -/
def Obligations.StepFormEqualsWholeCommand : Prop :=
  ∀ (s : State) (i : Instr), s.seq = .idle → s.fb.wf → s.HostWaits →
    ∃ t, exec i s = .next t ∧ run t.pending.length t = .next (s.whole i)

/-- Commands issued one after the other take effect in that order, each complete before the next is accepted: the run of
a host that issues a list of commands ends, with no fault, in the state of the whole commands applied one by one
(20_memory.md R65, R66; from R193). The host's moves that issue the list, hostMoves, are the model's form, entry 1. -/
def Obligations.IssuedCommandsTakeEffectInOrder : Prop :=
  ∀ (is : List Instr) (s : State), s.seq = .idle → s.fb.wf → s.stream = hostMoves is →
    ∃ n, run n s = .next { is.foldl State.whole s with stream := [] }

/-- The invariant holds after reset, whatever the parameters are. -/
def Obligations.InvariantAtReset : Prop :=
  ∀ (b : BitPos) (moves : List HostMove) (n : Nat), (State.resetWith b moves n).Inv

/-- Every step keeps the invariant: the canonical framebuffer, SEQ in step with CS and with the framebuffer (10_state.md
R37, 20_memory.md R71), the trace in step with the lines and the rules of the wire (R170, R171), ILL in step with the
record (60_exceptions.md R222). -/
def Obligations.InvariantIsKept : Prop := ∀ s t : State, s.Inv → step s = .next t → t.Inv

/-- No byte is sent while CS = 0, in any run from reset, whatever the host's moves, that leaves ILL at 0 and no fault
recorded (R171, with the premise of 60_exceptions.md R223). -/
def Obligations.NoByteWhileDeselected : Prop :=
  ∀ (b : BitPos) (moves : List HostMove) (d n : Nat) (t : State) (before after : List TraceEvent) (bytes : List Byte)
    (answer : BusAnswer),
    run n (State.resetWith b moves d) = .next t → t.Clean → t.trace = before ++ .write bytes answer :: after →
      csAfter (before.map TraceEvent.sent) = true ∧ bytes ≠ []

/-- CS changes only by the sequencer's next pending event, and from a state that meets the invariant only inside a
bracketed send (10_state.md R23). -/
def Obligations.ChipSelectIsTheSequencers : Prop :=
  ∀ s t : State, step s = .next t → t.cs ≠ s.cs →
    ∃ w rest, s.seq = .busy w (.setCS t.cs) rest ∧ (s.Inv → ∃ i, isSend i = true ∧ w = encode i)

/-- EN changes only by ENABLE, to 1, and DISABLE, to 0 (10_state.md R24), from every state that meets the invariant. -/
def Obligations.EnableIsWrittenByTwoCommands : Prop :=
  ∀ s t : State, s.Inv → step s = .next t → t.en ≠ s.en →
    ∃ w rest, (s.stream = .present w :: rest ∨ s.stream = .issue w :: rest) ∧ s.seq = .idle ∧
      ((decode w = .instr .enable ∧ t.en = true) ∨ (decode w = .instr .disable ∧ t.en = false))

/-- The framebuffer changes only by WRPIX, by FBFILL, and by the fill that ends CLEAR (20_memory.md R54, decision D7),
from every state that meets the invariant. -/
def Obligations.FramebufferHasThreeWriters : Prop :=
  ∀ s t : State, s.Inv → step s = .next t → t.fb ≠ s.fb →
    (∃ w rest, (s.stream = .present w :: rest ∨ s.stream = .issue w :: rest) ∧ s.seq = .idle ∧
      ((∃ x y b, decode w = .instr (.wrpix x y b)) ∨ ∃ v, decode w = .instr (.fbfill v))) ∨
    (s.seq = .busy 0x40000000#32 (.fbFill 0xFF#8) [] ∧ t.seq = .idle)

/-! Errors (60_exceptions.md). -/

/-- A word presented to a busy block is Overlap, whether or not it spells a command (R225, R226; decisions D10, D25): the
step ends in that fault with no state after it (entry 4), and so does `exec` called on a busy state (entry 10). -/
def Obligations.PresentingWhileBusyIsOverlap : Prop :=
  ∀ (s : State), s.seq ≠ .idle →
    (∀ w rest, s.stream = .present w :: rest → step s = .fault (.overlap w)) ∧
    ∀ i, exec i s = .fault (.overlap (encode i))

/-- Overlap is the only way a step stops, and no step refuses (R220, R226). That an illegal word stops no step, but answers
a next state with the fault recorded, is the model's reading of R87, R222 and R223, entry 3. -/
def Obligations.OverlapIsTheOnlyStop : Prop :=
  ∀ s : State, (∀ r, step s = .fault r → ∃ w rest, s.seq ≠ .idle ∧ s.stream = .present w :: rest ∧ r = .overlap w) ∧
    ∀ r, step s ≠ .refused r

/-- A host that presents no illegal word, and no word to a busy block, never meets a fault: from a clean state every run
goes on, with ILL at 0 and no fault recorded (70_reset_and_hazards.md R270, with the premise of R223; the moves are
entry 1, the record of an illegal word entry 3). -/
def Obligations.ObedientHostNeverFaults : Prop :=
  ∀ (n : Nat) (s : State), s.Clean → s.HostSpells → s.HostObeys → SafeRun n s

/-- An illegal word presented to an idle block sets ILL and is recorded, and has no other effect (R222, decisions D4 and
D24; that the step goes on is entry 3). -/
def Obligations.IllegalWordSetsTheFlag : Prop :=
  ∀ (s : State) (w : Word) (why : IllegalWord) (rest : List HostMove), s.seq = .idle → decode w = .illegal why →
    s.stream = .present w :: rest ∨ s.stream = .issue w :: rest →
    step s = .next { s with stream := rest, ill := true, faults := s.faults ++ [.illegalCommand w] }

/-- ILL, once set, stays set along every run, and recorded faults stay recorded (R229, R231, decision D24). -/
def Obligations.TheFlagIsSticky : Prop :=
  ∀ (n : Nat) (s t : State), run n s = .next t → (s.ill = true → t.ill = true) ∧ s.faults <+: t.faults

/-- ILL is set only by an illegal word: a step that sets it was presented one (R222). -/
def Obligations.OnlyIllegalWordsSetTheFlag : Prop :=
  ∀ s t : State, step s = .next t → s.ill = false → t.ill = true →
    ∃ w rest why, (s.stream = .present w :: rest ∨ s.stream = .issue w :: rest) ∧ decode w = .illegal why ∧
      t.faults = s.faults ++ [.illegalCommand w]

/-- The block keeps accepting commands after an illegal word: every command does the same whatever ILL and the record
hold (R222, R223). -/
def Obligations.CommandsIgnoreTheFlag : Prop :=
  ∀ (s : State) (i : Instr) (ill : Bool) (faults : List Fault), s.seq = .idle →
    ∃ t, exec i s = .next t ∧ t.ill = s.ill ∧ t.faults = s.faults ∧
      exec i { s with ill := ill, faults := faults } = .next { t with ill := ill, faults := faults }

/-! Order and loss (70_reset_and_hazards.md). -/

/-- A FLUSH accepted after a WRPIX sends the written bit: once it is complete, the trace has it in the burst of its row
(R271; over the trace, as 43_panel_transport.md R193 asks). -/
def Obligations.FlushSendsThePixelJustWritten : Prop :=
  ∀ (s : State) (x y : Coord) (black : Bool), s.seq = .idle → s.HostWaits →
    ∃ t u v sent record, exec (.wrpix (BitVec.ofNat 8 x.val) (BitVec.ofNat 8 y.val) black) s = .next t ∧
      exec .flush t = .next u ∧ run 132 u = .next v ∧ v.trace = s.trace ++ sent ∧
      (burstsOf sent)[y.val + 1]? = some (rowAddr y :: record) ∧
      (record[x.val / 8]?.map (fun v => v.getLsbD (pixelBit s.bitPos x).val)) = some (!black)

/-- CLEAR loses what was in the framebuffer: two blocks that differ in it alone are equal once CLEAR is complete (R273). -/
def Obligations.ClearLosesWhatWasThere : Prop :=
  ∀ (s : State) (m : Memory), s.seq = .idle → s.HostWaits →
    ∃ t t' u, exec .clear s = .next t ∧ exec .clear { s with fb := m } = .next t' ∧ run 4 t = .next u ∧
      run 4 t' = .next u

/-! The drawing pseudo-operations (42_drawing_pseudo_ops.md; host side, decisions D13-D15, entry 17). -/

/-- WRPIX commands of one colour leave the same state in any order (the file's preamble, from 41_framebuffer_commands.md
R120). -/
def Obligations.PlotOrderDoesNotMatter : Prop :=
  ∀ (s : State) (b : Bool) (is js : List Instr), s.fb.wf → s.seq = .idle → (∀ i ∈ is, ∃ x y, i = .wrpix x y b) →
    is.Perm js → ∃ t, execAll is s = .next t ∧ execAll js s = .next t

/-- RECT blackens exactly the pixels on the edges it draws, clipped to the panel, and nothing when its corner is out of
range (R140, R141). -/
def Obligations.RectBlackensItsEdges : Prop :=
  ∀ (s : State) (x y w h : Nat), s.seq = .idle → x < 256 → y < 256 → w < 256 → h < 256 →
    ∃ t, execAll (rect x y w h) s = .next t ∧ t = { s with fb := t.fb } ∧
      ∀ i j : Coord, t.pixel i j =
        if x < 128 ∧ y < 128 ∧
            ((x ≤ i.val ∧ i.val < x + w ∧ (j.val = y ∨ (1 ≤ h ∧ j.val = y + h - 1))) ∨
             (y ≤ j.val ∧ j.val < y + h ∧ (i.val = x ∨ (1 ≤ w ∧ i.val = x + w - 1))))
        then false else s.pixel i j

/-- RECT's perimeter law: with all four edges in range exactly the perimeter is drawn and no interior pixel (R142). -/
def Obligations.RectDrawsItsPerimeter : Prop :=
  ∀ (x y w h : Nat) (i j : Coord), 1 ≤ w → 1 ≤ h → x + w - 1 ≤ 127 → y + h - 1 ≤ 127 →
    (Instr.wrpix (BitVec.ofNat 8 i.val) (BitVec.ofNat 8 j.val) true ∈ rect x y w h ↔
      x ≤ i.val ∧ i.val ≤ x + w - 1 ∧ y ≤ j.val ∧ j.val ≤ y + h - 1 ∧
        (i.val = x ∨ i.val = x + w - 1 ∨ j.val = y ∨ j.val = y + h - 1))

/-- Every point of a circle lies between `r − 1` and `r` from its centre, before truncation (R153). -/
def Obligations.CirclePointsLieNearTheRadius : Prop :=
  ∀ (x0 y0 r : Nat) (p : Int × Int), 2 ≤ r → r ≤ 255 → p ∈ circleAllPoints x0 y0 r →
    ((r : Int) - 1) ^ 2 ≤ (p.1 - x0) ^ 2 + (p.2 - y0) ^ 2 ∧ (p.1 - x0) ^ 2 + (p.2 - y0) ^ 2 ≤ (r : Int) ^ 2

/-- The points of a circle are symmetric under the 8 reflections, before truncation (R153). -/
def Obligations.CircleIsSymmetric : Prop :=
  ∀ (x0 y0 r : Nat) (u v : Int), ((x0 : Int) + u, (y0 : Int) + v) ∈ circleAllPoints x0 y0 r →
    ((x0 : Int) - u, (y0 : Int) + v) ∈ circleAllPoints x0 y0 r ∧
    ((x0 : Int) + u, (y0 : Int) - v) ∈ circleAllPoints x0 y0 r ∧
    ((x0 : Int) + v, (y0 : Int) + u) ∈ circleAllPoints x0 y0 r

/-- CIRCLE gives its colour to the pixels its points name after truncation by `trunc8`, wrapped points included, and
changes nothing else (R150, R152). -/
def Obligations.CircleColoursItsTruncatedPoints : Prop :=
  ∀ (s : State) (x0 y0 r : Nat) (b : Bool), s.seq = .idle →
    ∃ t, execAll (circle x0 y0 r b) s = .next t ∧ t = { s with fb := t.fb } ∧
      (∀ (i j : Coord) (px py : Int), (px, py) ∈ circleAllPoints x0 y0 r → px % 256 = i.val → py % 256 = j.val →
        t.pixel i j = !b) ∧
      (∀ i j : Coord, (∀ px py : Int, (px, py) ∈ circleAllPoints x0 y0 r → ¬ (px % 256 = i.val ∧ py % 256 = j.val)) →
        t.pixel i j = s.pixel i j)

/-- CHECKER makes pixel `(x, y)` black exactly when `x + y` is even, whatever was there; so under the default BITPOS every
byte of an even row is AA and every byte of an odd row 55 (R160). -/
def Obligations.CheckerColoursEveryPixel : Prop :=
  ∀ s : State, s.seq = .idle →
    ∃ t, execAll checker s = .next t ∧ t = { s with fb := t.fb } ∧
      (∀ i j : Coord, t.pixel i j = decide ((i.val + j.val) % 2 = 1)) ∧
      (s.bitPos = Config.defaultBitPos →
        ∀ (i : Coord) (c : ByteCol), t.memRead (byteAddr i c) = if i.val % 2 = 0 then 0xAA#8 else 0x55#8)
end

