-- ==== Sys2Proof/Laws/Memory.lean ====
section
/-! SUPPORT. The framebuffer: reads after writes, the canonical form, and equality of canonical memories. -/

namespace Sys2Proof.Machine

@[simp] theorem Memory.read_nil (a : Addr) : Memory.read [] a = 0#8 := rfl

theorem Memory.read_cons (c : Host.Cell) (m : Memory) (a : Addr) :
    Memory.read (c :: m) a = if c.1 = a.val then c.2 else Memory.read m a := rfl

theorem Memory.read_insert_same (m : Memory) (a : Addr) (v : Byte) : (m.insert a v).read a = v := by
  induction m with
  | nil => simp [Memory.insert, Memory.read]
  | cons c m ih =>
    unfold Memory.insert
    split
    · simp [Memory.read]
    · split
      · simp [Memory.read]
      · next h => rw [Memory.read_cons, if_neg h, ih]

theorem Memory.read_insert_other (m : Memory) {a b : Addr} (v : Byte) (hab : b ≠ a) :
    (m.insert a v).read b = m.read b := by
  have hval : a.val ≠ b.val := fun h => hab (Fin.ext h.symm)
  induction m with
  | nil => simp [Memory.insert, Memory.read, hval]
  | cons c m ih =>
    unfold Memory.insert
    split
    · simp [Memory.read, hval]
    · split
      · next h => simp [Memory.read, hval, h]
      · rw [Memory.read_cons, Memory.read_cons, ih]

theorem Memory.read_erase_same (m : Memory) (a : Addr) : (m.erase a).read a = 0#8 := by
  induction m with
  | nil => rfl
  | cons c m ih =>
    by_cases h : c.1 = a.val
    · simpa [Memory.erase, h] using ih
    · simpa [Memory.erase, h, Memory.read_cons] using ih

theorem Memory.read_erase_other (m : Memory) {a b : Addr} (hab : b ≠ a) : (m.erase a).read b = m.read b := by
  have hval : a.val ≠ b.val := fun h => hab (Fin.ext h.symm)
  induction m with
  | nil => rfl
  | cons c m ih =>
    have ih' : Memory.read (List.filter (fun c => c.1 != a.val) m) b = Memory.read m b := ih
    by_cases h : c.1 = a.val
    · simp [Memory.erase, Memory.read_cons, ih', h, hval]
    · simp [Memory.erase, Memory.read_cons, ih', h]

theorem Memory.read_write_same (m : Memory) (a : Addr) (v : Byte) : (m.write a v).read a = v := by
  unfold Memory.write
  split
  · next h => rw [Memory.read_erase_same, h]
  · exact Memory.read_insert_same m a v

theorem Memory.read_write_other (m : Memory) {a b : Addr} (v : Byte) (hab : b ≠ a) :
    (m.write a v).read b = m.read b := by
  unfold Memory.write
  split
  · exact Memory.read_erase_other m hab
  · exact Memory.read_insert_other m v hab

theorem Memory.read_write (m : Memory) (a b : Addr) (v : Byte) :
    (m.write a v).read b = if b = a then v else m.read b := by
  split
  · next h => rw [h, Memory.read_write_same]
  · next h => exact Memory.read_write_other m v h

theorem Memory.read_map_const (l : List Nat) (v : Byte) (a : Addr) (h : a.val ∈ l) :
    Memory.read (l.map (fun k => (k, v))) a = v := by
  induction l with
  | nil => simp at h
  | cons k l ih =>
    rw [List.map_cons, Memory.read_cons]
    split
    · rfl
    · next hk => exact ih ((List.mem_cons.1 h).resolve_left (fun e => hk e.symm))

theorem Memory.read_fill (v : Byte) (a : Addr) : (Memory.fill v).read a = v := by
  unfold Memory.fill
  split
  · next h => rw [h, Memory.read_nil]
  · exact Memory.read_map_const _ v a (List.mem_range.2 a.isLt)

theorem Memory.wf_nil : Memory.wf [] := by simp [Memory.wf]

theorem Memory.wf_tail {c : Host.Cell} {m : Memory} (h : Memory.wf (c :: m)) : Memory.wf m :=
  ⟨(List.pairwise_cons.1 h.1).2, fun d hd => h.2 d (List.mem_cons_of_mem c hd)⟩

theorem Memory.wf_cons {c : Host.Cell} {m : Memory} (hm : Memory.wf m) (hlt : ∀ d ∈ m, c.1 < d.1)
    (hc : c.1 < 2048 ∧ c.2 ≠ 0#8) : Memory.wf (c :: m) :=
  ⟨List.pairwise_cons.2 ⟨hlt, hm.1⟩, fun d hd => by
    rcases List.mem_cons.1 hd with rfl | hd
    · exact hc
    · exact hm.2 d hd⟩

theorem Memory.mem_insert {m : Memory} {a : Addr} {v : Byte} {d : Host.Cell} (h : d ∈ m.insert a v) :
    d = (a.val, v) ∨ d ∈ m := by
  induction m with
  | nil => simpa [Memory.insert] using h
  | cons c m ih =>
    unfold Memory.insert at h
    split at h
    · simpa using h
    · split at h
      · rcases List.mem_cons.1 h with h | h
        · exact .inl h
        · exact .inr (List.mem_cons_of_mem c h)
      · rcases List.mem_cons.1 h with h | h
        · exact .inr (h ▸ List.mem_cons_self)
        · exact (ih h).imp id (List.mem_cons_of_mem c)

theorem Memory.wf_insert {m : Memory} (hm : m.wf) (a : Addr) {v : Byte} (hv : v ≠ 0#8) : (m.insert a v).wf := by
  induction m with
  | nil => exact Memory.wf_cons Memory.wf_nil (by simp) ⟨a.isLt, hv⟩
  | cons c m ih =>
    have hlt := (List.pairwise_cons.1 hm.1).1
    unfold Memory.insert
    split
    · next h =>
      refine Memory.wf_cons hm (fun d hd => ?_) ⟨a.isLt, hv⟩
      rcases List.mem_cons.1 hd with rfl | hd
      · exact h
      · exact Nat.lt_trans h (hlt d hd)
    · split
      · next h => exact Memory.wf_cons (Memory.wf_tail hm) (fun d hd => h ▸ hlt d hd) ⟨a.isLt, hv⟩
      · refine Memory.wf_cons (ih (Memory.wf_tail hm)) (fun d hd => ?_) (hm.2 c List.mem_cons_self)
        rcases Memory.mem_insert hd with rfl | hd
        · show c.1 < a.val
          omega
        · exact hlt d hd

theorem Memory.wf_erase {m : Memory} (hm : m.wf) (a : Addr) : (m.erase a).wf :=
  ⟨hm.1.filter _, fun d hd => hm.2 d (List.mem_filter.1 hd).1⟩

/-- Every write keeps the canonical form. -/
theorem Memory.wf_write {m : Memory} (hm : m.wf) (a : Addr) (v : Byte) : (m.write a v).wf := by
  unfold Memory.write
  split
  · exact Memory.wf_erase hm a
  · next h => exact Memory.wf_insert hm a h

/-- A filled framebuffer is in canonical form. -/
theorem Memory.wf_fill (v : Byte) : (Memory.fill v).wf := by
  unfold Memory.fill
  split
  · exact Memory.wf_nil
  · next h =>
    constructor
    · rw [List.pairwise_map]
      exact List.pairwise_lt_range
    · intro c hc
      obtain ⟨a, ha, rfl⟩ := List.mem_map.1 hc
      exact ⟨List.mem_range.1 ha, h⟩

theorem Memory.read_eq_of_mem {m : Memory} (hm : m.wf) {c : Host.Cell} (hc : c ∈ m) (h : c.1 < 2048) :
    m.read ⟨c.1, h⟩ = c.2 := by
  induction m with
  | nil => simp at hc
  | cons d m ih =>
    rw [Memory.read_cons]
    rcases List.mem_cons.1 hc with rfl | hc
    · simp
    · have hlt := (List.pairwise_cons.1 hm.1).1 c hc
      rw [if_neg (by simp only; omega)]
      exact ih (Memory.wf_tail hm) hc

theorem Memory.mem_of_read {m : Memory} (hm : m.wf) {a : Addr} (h : m.read a ≠ 0#8) : (a.val, m.read a) ∈ m := by
  induction m with
  | nil => exact absurd rfl h
  | cons d m ih =>
    rw [Memory.read_cons] at h ⊢
    split
    · next hd => exact hd ▸ List.mem_cons_self
    · next hd =>
      rw [if_neg hd] at h
      exact List.mem_cons_of_mem d (ih (Memory.wf_tail hm) h)

/-- Equal memories are equal data: two canonical memories that read the same at every address are the same list. -/
theorem Memory.ext_of_wf {m n : Memory} (hm : m.wf) (hn : n.wf) (h : ∀ a, m.read a = n.read a) : m = n := by
  have sub : ∀ {p q : Memory}, p.wf → q.wf → (∀ a, p.read a = q.read a) → ∀ c ∈ p, c ∈ q := by
    intro p q hp hq heq c hc
    have hb := hp.2 c hc
    have hr := Memory.read_eq_of_mem hp hc hb.1
    have hq' : q.read ⟨c.1, hb.1⟩ = c.2 := by rw [← heq, hr]
    have hmem := Memory.mem_of_read hq (a := ⟨c.1, hb.1⟩) (by rw [hq']; exact hb.2)
    rwa [hq'] at hmem
  have anti : ∀ c d : Host.Cell, c ∈ m → d ∈ n → c.1 < d.1 → d.1 < c.1 → c = d :=
    fun c d _ _ h1 h2 => absurd (Nat.lt_trans h1 h2) (Nat.lt_irrefl _)
  have nodup : ∀ {p : Memory}, p.wf → p.Nodup := fun hp => hp.1.imp (fun hlt he => by rw [he] at hlt; exact Nat.lt_irrefl _ hlt)
  have perm : m.Perm n :=
    (List.perm_ext_iff_of_nodup (nodup hm) (nodup hn)).2
      (fun c => ⟨sub hm hn h c, sub hn hm (fun a => (h a).symm) c⟩)
  exact List.Perm.eq_of_pairwise anti hm.1 hn.1 perm

theorem State.memRead_memWrite (s : State) (a b : Addr) (v : Byte) :
    (s.memWrite a v).memRead b = if b = a then v else s.memRead b := Memory.read_write s.fb a b v

theorem State.memRead_fbFill (s : State) (v : Byte) (a : Addr) : (s.fbFill v).memRead a = v := Memory.read_fill v a

end Sys2Proof.Machine
end

