-- ==== Sys2Proof/Laws/State.lean ====
section
/-! SUPPORT. One lemma per field per update of State. -/

namespace Sys2Proof.Machine

@[simp] theorem State.memWrite_fb (s : State) (a : Addr) (v : Byte) : (s.memWrite a v).fb = s.fb.write a v := rfl
@[simp] theorem State.memWrite_cs (s : State) (a : Addr) (v : Byte) : (s.memWrite a v).cs = s.cs := rfl
@[simp] theorem State.memWrite_en (s : State) (a : Addr) (v : Byte) : (s.memWrite a v).en = s.en := rfl
@[simp] theorem State.memWrite_seq (s : State) (a : Addr) (v : Byte) : (s.memWrite a v).seq = s.seq := rfl
@[simp] theorem State.memWrite_ill (s : State) (a : Addr) (v : Byte) : (s.memWrite a v).ill = s.ill := rfl
@[simp] theorem State.memWrite_trace (s : State) (a : Addr) (v : Byte) : (s.memWrite a v).trace = s.trace := rfl
@[simp] theorem State.memWrite_faults (s : State) (a : Addr) (v : Byte) : (s.memWrite a v).faults = s.faults := rfl
@[simp] theorem State.memWrite_stream (s : State) (a : Addr) (v : Byte) : (s.memWrite a v).stream = s.stream := rfl
@[simp] theorem State.memWrite_bursts (s : State) (a : Addr) (v : Byte) : (s.memWrite a v).bursts = s.bursts := rfl
@[simp] theorem State.memWrite_bitPos (s : State) (a : Addr) (v : Byte) : (s.memWrite a v).bitPos = s.bitPos := rfl

@[simp] theorem State.setCS_fb (s : State) (v : Bool) : (s.setCS v).fb = s.fb := rfl
@[simp] theorem State.setCS_cs (s : State) (v : Bool) : (s.setCS v).cs = v := rfl
@[simp] theorem State.setCS_en (s : State) (v : Bool) : (s.setCS v).en = s.en := rfl
@[simp] theorem State.setCS_seq (s : State) (v : Bool) : (s.setCS v).seq = s.seq := rfl
@[simp] theorem State.setCS_ill (s : State) (v : Bool) : (s.setCS v).ill = s.ill := rfl
@[simp] theorem State.setCS_trace (s : State) (v : Bool) : (s.setCS v).trace = s.trace ++ [.setCS v] := rfl
@[simp] theorem State.setCS_faults (s : State) (v : Bool) : (s.setCS v).faults = s.faults := rfl
@[simp] theorem State.setCS_stream (s : State) (v : Bool) : (s.setCS v).stream = s.stream := rfl
@[simp] theorem State.setCS_bursts (s : State) (v : Bool) : (s.setCS v).bursts = s.bursts := rfl
@[simp] theorem State.setCS_bitPos (s : State) (v : Bool) : (s.setCS v).bitPos = s.bitPos := rfl

@[simp] theorem State.setEN_fb (s : State) (v : Bool) : (s.setEN v).fb = s.fb := rfl
@[simp] theorem State.setEN_cs (s : State) (v : Bool) : (s.setEN v).cs = s.cs := rfl
@[simp] theorem State.setEN_en (s : State) (v : Bool) : (s.setEN v).en = v := rfl
@[simp] theorem State.setEN_seq (s : State) (v : Bool) : (s.setEN v).seq = s.seq := rfl
@[simp] theorem State.setEN_ill (s : State) (v : Bool) : (s.setEN v).ill = s.ill := rfl
@[simp] theorem State.setEN_trace (s : State) (v : Bool) : (s.setEN v).trace = s.trace ++ [.setEN v] := rfl
@[simp] theorem State.setEN_faults (s : State) (v : Bool) : (s.setEN v).faults = s.faults := rfl
@[simp] theorem State.setEN_stream (s : State) (v : Bool) : (s.setEN v).stream = s.stream := rfl
@[simp] theorem State.setEN_bursts (s : State) (v : Bool) : (s.setEN v).bursts = s.bursts := rfl
@[simp] theorem State.setEN_bitPos (s : State) (v : Bool) : (s.setEN v).bitPos = s.bitPos := rfl

@[simp] theorem State.busWrite_fb (s : State) (bytes : List Byte) : (s.busWrite bytes).fb = s.fb := rfl
@[simp] theorem State.busWrite_cs (s : State) (bytes : List Byte) : (s.busWrite bytes).cs = s.cs := rfl
@[simp] theorem State.busWrite_en (s : State) (bytes : List Byte) : (s.busWrite bytes).en = s.en := rfl
@[simp] theorem State.busWrite_seq (s : State) (bytes : List Byte) : (s.busWrite bytes).seq = s.seq := rfl
@[simp] theorem State.busWrite_ill (s : State) (bytes : List Byte) : (s.busWrite bytes).ill = s.ill := rfl
@[simp] theorem State.busWrite_trace (s : State) (bytes : List Byte) : (s.busWrite bytes).trace = s.trace ++ [.write bytes (Config.busAnswer s.bursts)] := rfl
@[simp] theorem State.busWrite_faults (s : State) (bytes : List Byte) : (s.busWrite bytes).faults = s.faults := rfl
@[simp] theorem State.busWrite_stream (s : State) (bytes : List Byte) : (s.busWrite bytes).stream = s.stream := rfl
@[simp] theorem State.busWrite_bursts (s : State) (bytes : List Byte) : (s.busWrite bytes).bursts = s.bursts + 1 := rfl
@[simp] theorem State.busWrite_bitPos (s : State) (bytes : List Byte) : (s.busWrite bytes).bitPos = s.bitPos := rfl

@[simp] theorem State.fbFill_fb (s : State) (v : Byte) : (s.fbFill v).fb = Memory.fill v := rfl
@[simp] theorem State.fbFill_cs (s : State) (v : Byte) : (s.fbFill v).cs = s.cs := rfl
@[simp] theorem State.fbFill_en (s : State) (v : Byte) : (s.fbFill v).en = s.en := rfl
@[simp] theorem State.fbFill_seq (s : State) (v : Byte) : (s.fbFill v).seq = s.seq := rfl
@[simp] theorem State.fbFill_ill (s : State) (v : Byte) : (s.fbFill v).ill = s.ill := rfl
@[simp] theorem State.fbFill_trace (s : State) (v : Byte) : (s.fbFill v).trace = s.trace := rfl
@[simp] theorem State.fbFill_faults (s : State) (v : Byte) : (s.fbFill v).faults = s.faults := rfl
@[simp] theorem State.fbFill_stream (s : State) (v : Byte) : (s.fbFill v).stream = s.stream := rfl
@[simp] theorem State.fbFill_bursts (s : State) (v : Byte) : (s.fbFill v).bursts = s.bursts := rfl
@[simp] theorem State.fbFill_bitPos (s : State) (v : Byte) : (s.fbFill v).bitPos = s.bitPos := rfl

@[simp] theorem State.beginSend_fb (s : State) (w : Word) (es : List SeqEvent) : (s.beginSend w es).fb = s.fb := rfl
@[simp] theorem State.beginSend_cs (s : State) (w : Word) (es : List SeqEvent) : (s.beginSend w es).cs = s.cs := rfl
@[simp] theorem State.beginSend_en (s : State) (w : Word) (es : List SeqEvent) : (s.beginSend w es).en = s.en := rfl
@[simp] theorem State.beginSend_seq (s : State) (w : Word) (es : List SeqEvent) : (s.beginSend w es).seq = Seq.ofPending w es := rfl
@[simp] theorem State.beginSend_ill (s : State) (w : Word) (es : List SeqEvent) : (s.beginSend w es).ill = s.ill := rfl
@[simp] theorem State.beginSend_trace (s : State) (w : Word) (es : List SeqEvent) : (s.beginSend w es).trace = s.trace := rfl
@[simp] theorem State.beginSend_faults (s : State) (w : Word) (es : List SeqEvent) : (s.beginSend w es).faults = s.faults := rfl
@[simp] theorem State.beginSend_stream (s : State) (w : Word) (es : List SeqEvent) : (s.beginSend w es).stream = s.stream := rfl
@[simp] theorem State.beginSend_bursts (s : State) (w : Word) (es : List SeqEvent) : (s.beginSend w es).bursts = s.bursts := rfl
@[simp] theorem State.beginSend_bitPos (s : State) (w : Word) (es : List SeqEvent) : (s.beginSend w es).bitPos = s.bitPos := rfl

@[simp] theorem State.raiseIllegal_fb (s : State) (w : Word) : (s.raiseIllegal w).fb = s.fb := rfl
@[simp] theorem State.raiseIllegal_cs (s : State) (w : Word) : (s.raiseIllegal w).cs = s.cs := rfl
@[simp] theorem State.raiseIllegal_en (s : State) (w : Word) : (s.raiseIllegal w).en = s.en := rfl
@[simp] theorem State.raiseIllegal_seq (s : State) (w : Word) : (s.raiseIllegal w).seq = s.seq := rfl
@[simp] theorem State.raiseIllegal_ill (s : State) (w : Word) : (s.raiseIllegal w).ill = true := rfl
@[simp] theorem State.raiseIllegal_trace (s : State) (w : Word) : (s.raiseIllegal w).trace = s.trace := rfl
@[simp] theorem State.raiseIllegal_faults (s : State) (w : Word) : (s.raiseIllegal w).faults = s.faults ++ [.illegalCommand w] := rfl
@[simp] theorem State.raiseIllegal_stream (s : State) (w : Word) : (s.raiseIllegal w).stream = s.stream := rfl
@[simp] theorem State.raiseIllegal_bursts (s : State) (w : Word) : (s.raiseIllegal w).bursts = s.bursts := rfl
@[simp] theorem State.raiseIllegal_bitPos (s : State) (w : Word) : (s.raiseIllegal w).bitPos = s.bitPos := rfl

@[simp] theorem State.moved_fb (s : State) : (s.moved).fb = s.fb := rfl
@[simp] theorem State.moved_cs (s : State) : (s.moved).cs = s.cs := rfl
@[simp] theorem State.moved_en (s : State) : (s.moved).en = s.en := rfl
@[simp] theorem State.moved_seq (s : State) : (s.moved).seq = s.seq := rfl
@[simp] theorem State.moved_ill (s : State) : (s.moved).ill = s.ill := rfl
@[simp] theorem State.moved_trace (s : State) : (s.moved).trace = s.trace := rfl
@[simp] theorem State.moved_faults (s : State) : (s.moved).faults = s.faults := rfl
@[simp] theorem State.moved_stream (s : State) : (s.moved).stream = s.stream.tail := rfl
@[simp] theorem State.moved_bursts (s : State) : (s.moved).bursts = s.bursts := rfl
@[simp] theorem State.moved_bitPos (s : State) : (s.moved).bitPos = s.bitPos := rfl

@[simp] theorem State.withNextWord_fb (s : State) (w : Word) : (s.withNextWord w).fb = s.fb := rfl
@[simp] theorem State.withNextWord_cs (s : State) (w : Word) : (s.withNextWord w).cs = s.cs := rfl
@[simp] theorem State.withNextWord_en (s : State) (w : Word) : (s.withNextWord w).en = s.en := rfl
@[simp] theorem State.withNextWord_seq (s : State) (w : Word) : (s.withNextWord w).seq = s.seq := rfl
@[simp] theorem State.withNextWord_ill (s : State) (w : Word) : (s.withNextWord w).ill = s.ill := rfl
@[simp] theorem State.withNextWord_trace (s : State) (w : Word) : (s.withNextWord w).trace = s.trace := rfl
@[simp] theorem State.withNextWord_faults (s : State) (w : Word) : (s.withNextWord w).faults = s.faults := rfl
@[simp] theorem State.withNextWord_stream (s : State) (w : Word) : (s.withNextWord w).stream = .present w :: s.stream := rfl
@[simp] theorem State.withNextWord_bursts (s : State) (w : Word) : (s.withNextWord w).bursts = s.bursts := rfl
@[simp] theorem State.withNextWord_bitPos (s : State) (w : Word) : (s.withNextWord w).bitPos = s.bitPos := rfl

theorem State.perform_setCS (s : State) (v : Bool) : s.perform (.setCS v) = s.setCS v := rfl
theorem State.perform_setEN (s : State) (v : Bool) : s.perform (.setEN v) = s.setEN v := rfl
theorem State.perform_write (s : State) (bytes : List Byte) : s.perform (.write bytes) = s.busWrite bytes := rfl
theorem State.perform_fbFill (s : State) (v : Byte) : s.perform (.fbFill v) = s.fbFill v := rfl

@[simp] theorem State.perform_seq (s : State) (e : SeqEvent) : (s.perform e).seq = s.seq := by cases e <;> rfl
@[simp] theorem State.perform_ill (s : State) (e : SeqEvent) : (s.perform e).ill = s.ill := by cases e <;> rfl
@[simp] theorem State.perform_faults (s : State) (e : SeqEvent) : (s.perform e).faults = s.faults := by cases e <;> rfl
@[simp] theorem State.perform_stream (s : State) (e : SeqEvent) : (s.perform e).stream = s.stream := by cases e <;> rfl
@[simp] theorem State.perform_bitPos (s : State) (e : SeqEvent) : (s.perform e).bitPos = s.bitPos := by cases e <;> rfl

@[simp] theorem State.writePixelAt_cs (s : State) (x y : Coord) (b : Bool) : (s.writePixelAt x y b).cs = s.cs := rfl
@[simp] theorem State.writePixelAt_en (s : State) (x y : Coord) (b : Bool) : (s.writePixelAt x y b).en = s.en := rfl
@[simp] theorem State.writePixelAt_seq (s : State) (x y : Coord) (b : Bool) : (s.writePixelAt x y b).seq = s.seq := rfl
@[simp] theorem State.writePixelAt_ill (s : State) (x y : Coord) (b : Bool) : (s.writePixelAt x y b).ill = s.ill := rfl
@[simp] theorem State.writePixelAt_trace (s : State) (x y : Coord) (b : Bool) : (s.writePixelAt x y b).trace = s.trace := rfl
@[simp] theorem State.writePixelAt_faults (s : State) (x y : Coord) (b : Bool) : (s.writePixelAt x y b).faults = s.faults := rfl
@[simp] theorem State.writePixelAt_stream (s : State) (x y : Coord) (b : Bool) : (s.writePixelAt x y b).stream = s.stream := rfl
@[simp] theorem State.writePixelAt_bursts (s : State) (x y : Coord) (b : Bool) : (s.writePixelAt x y b).bursts = s.bursts := rfl
@[simp] theorem State.writePixelAt_bitPos (s : State) (x y : Coord) (b : Bool) : (s.writePixelAt x y b).bitPos = s.bitPos := rfl

@[simp] theorem State.writePixel_cs (s : State) (x y : Byte) (b : Bool) : (s.writePixel x y b).cs = s.cs := by
  unfold State.writePixel; split <;> rfl
@[simp] theorem State.writePixel_en (s : State) (x y : Byte) (b : Bool) : (s.writePixel x y b).en = s.en := by
  unfold State.writePixel; split <;> rfl
@[simp] theorem State.writePixel_seq (s : State) (x y : Byte) (b : Bool) : (s.writePixel x y b).seq = s.seq := by
  unfold State.writePixel; split <;> rfl
@[simp] theorem State.writePixel_ill (s : State) (x y : Byte) (b : Bool) : (s.writePixel x y b).ill = s.ill := by
  unfold State.writePixel; split <;> rfl
@[simp] theorem State.writePixel_trace (s : State) (x y : Byte) (b : Bool) : (s.writePixel x y b).trace = s.trace := by
  unfold State.writePixel; split <;> rfl
@[simp] theorem State.writePixel_faults (s : State) (x y : Byte) (b : Bool) : (s.writePixel x y b).faults = s.faults := by
  unfold State.writePixel; split <;> rfl
@[simp] theorem State.writePixel_stream (s : State) (x y : Byte) (b : Bool) : (s.writePixel x y b).stream = s.stream := by
  unfold State.writePixel; split <;> rfl
@[simp] theorem State.writePixel_bursts (s : State) (x y : Byte) (b : Bool) : (s.writePixel x y b).bursts = s.bursts := by
  unfold State.writePixel; split <;> rfl
@[simp] theorem State.writePixel_bitPos (s : State) (x y : Byte) (b : Bool) : (s.writePixel x y b).bitPos = s.bitPos := by
  unfold State.writePixel; split <;> rfl

@[simp] theorem Seq.ofPending_nil (w : Word) : Seq.ofPending w [] = .idle := rfl
@[simp] theorem Seq.ofPending_cons (w : Word) (e : SeqEvent) (es : List SeqEvent) : Seq.ofPending w (e :: es) = .busy w e es := rfl

theorem State.sequence_idle {s : State} (h : s.seq = .idle) : s.sequence = s := by simp [State.sequence, h]

theorem State.sequence_busy {s : State} {w : Word} {e : SeqEvent} {rest : List SeqEvent} (h : s.seq = .busy w e rest) :
    s.sequence = { s.perform e with seq := Seq.ofPending w rest } := by simp [State.sequence, h]

@[simp] theorem State.sequence_ill (s : State) : s.sequence.ill = s.ill := by
  unfold State.sequence; split <;> simp
@[simp] theorem State.sequence_faults (s : State) : s.sequence.faults = s.faults := by
  unfold State.sequence; split <;> simp
@[simp] theorem State.sequence_stream (s : State) : s.sequence.stream = s.stream := by
  unfold State.sequence; split <;> simp
@[simp] theorem State.sequence_bitPos (s : State) : s.sequence.bitPos = s.bitPos := by
  unfold State.sequence; split <;> simp

end Sys2Proof.Machine
end

