-- ==== Sys2Proof/Laws/Pixel.lean ====
section
/-! SUPPORT. Pixels: places are distinct, and writing one changes no other (20_memory.md R55). -/

namespace Sys2Proof.Machine

theorem coord?_of_lt {n : Byte} (h : n.toNat < 128) : coord? n = some ⟨n.toNat, h⟩ := by simp [coord?, h]

theorem coord?_of_ge {n : Byte} (h : 128 ≤ n.toNat) : coord? n = none := by
  simp [coord?, Nat.not_lt.2 h]

theorem State.writePixel_in (s : State) {x y : Byte} (b : Bool) (hx : x.toNat < 128) (hy : y.toNat < 128) :
    s.writePixel x y b = s.writePixelAt ⟨x.toNat, hx⟩ ⟨y.toNat, hy⟩ b := by
  simp [State.writePixel, coord?_of_lt hx, coord?_of_lt hy]

theorem State.writePixel_out (s : State) {x y : Byte} (b : Bool) (h : 128 ≤ x.toNat ∨ 128 ≤ y.toNat) :
    s.writePixel x y b = s := by
  rcases h with h | h
  · simp [State.writePixel, coord?_of_ge h]
  · unfold State.writePixel
    rw [coord?_of_ge h]
    split <;> simp_all

/-- BITPOS uses no bit position twice. -/
theorem bitPosAt_injective (b : BitPos) : Function.Injective (bitPosAt b) := by
  intro i j h
  have hlen : b.table.toList.length = 8 := by simp
  have hi : b.table.toList[i.val]'(by omega) = bitPosAt b i := by simp [bitPosAt]
  have hj : b.table.toList[j.val]'(by omega) = bitPosAt b j := by simp [bitPosAt]
  have hn := (List.nodup_iff_injective_get.1 b.bijective) (a₁ := ⟨i.val, by omega⟩) (a₂ := ⟨j.val, by omega⟩)
    (by rw [List.get_eq_getElem, List.get_eq_getElem, hi, hj, h])
  exact Fin.ext (by simpa using hn)

/-- Two pixels in the same byte at the same bit are one pixel. -/
theorem pixel_place_injective {b : BitPos} {x y x' y' : Coord} (ha : pixelAddr x y = pixelAddr x' y')
    (hb : pixelBit b x = pixelBit b x') : x = x' ∧ y = y' := by
  have hk := congrArg Fin.val (bitPosAt_injective b hb)
  have hv := congrArg Fin.val ha
  simp only [pixelAddr, byteAddr, pixelByte] at hv hk
  exact ⟨Fin.ext (by omega), Fin.ext (by omega)⟩

/-- The written bit of a coloured byte. -/
theorem colourByte_same (old : Byte) (k : Fin 8) (black : Bool) :
    (colourByte old (1#8 <<< k.val) black).getLsbD k.val = !black := by
  have hk := k.isLt
  cases black <;> simp [colourByte]

/-- The other bits of a coloured byte. -/
theorem colourByte_other (old : Byte) {k j : Fin 8} (black : Bool) (h : j ≠ k) :
    (colourByte old (1#8 <<< k.val) black).getLsbD j.val = old.getLsbD j.val := by
  have hk := k.isLt
  have hj := j.isLt
  have hne : j.val ≠ k.val := fun e => h (Fin.ext e)
  have hbit : (1#8 <<< k.val).getLsbD j.val = false := by
    rw [BitVec.getLsbD_shiftLeft]
    simp only [hj, decide_true, Bool.true_and]
    by_cases hlt : j.val < k.val
    · simp [hlt]
    · have : 1 ≤ j.val - k.val := by omega
      simp [BitVec.getLsbD_one]
      omega
  cases black
  · rw [colourByte, if_neg Bool.false_ne_true, BitVec.getLsbD_or, hbit, Bool.or_false]
  · rw [colourByte, if_pos rfl, BitVec.getLsbD_and, BitVec.getLsbD_not, hbit]
    simp [hj]

/-- Every pixel after one is written. -/
theorem State.pixel_writePixelAt (s : State) (x y x' y' : Coord) (black : Bool) :
    (s.writePixelAt x y black).pixel x' y' = if x' = x ∧ y' = y then !black else s.pixel x' y' := by
  unfold State.pixel State.writePixelAt
  rw [State.memRead_memWrite, State.memWrite_bitPos]
  by_cases ha : pixelAddr x' y' = pixelAddr x y
  · rw [if_pos ha]
    by_cases hb : pixelBit s.bitPos x' = pixelBit s.bitPos x
    · rw [if_pos (pixel_place_injective ha hb), hb, pixelMask, colourByte_same]
    · rw [if_neg (fun h => hb (by rw [h.1])), pixelMask, colourByte_other _ _ hb, ha]
  · rw [if_neg ha, if_neg (fun h => ha (by rw [h.1, h.2]))]

end Sys2Proof.Machine
end

