-- ==== Sys2Proof/Laws/Step.lean ====
section
/-! SUPPORT. What the shared operations over the command port and the sequencer can do, said once: accepting a command,
presenting a word, one step, and runs. -/

namespace Sys2Proof.Machine

theorem acceptIdle_idle {s : State} (w : Word) (t : State) (h : s.seq = .idle) : acceptIdle w s t = .next t := by
  simp [acceptIdle, h]

theorem acceptIdle_busy {s : State} {v : Word} {e : SeqEvent} {rest : List SeqEvent} (w : Word) (t : State)
    (h : s.seq = .busy v e rest) : acceptIdle w s t = .fault (.overlap w) := by
  simp [acceptIdle, h]

/-- Accepting answers a next state only for an idle block, and then the given one. -/
theorem acceptIdle_next {w : Word} {s t u : State} (h : acceptIdle w s t = .next u) : s.seq = .idle ∧ u = t := by
  cases hs : s.seq with
  | idle => rw [acceptIdle_idle w t hs] at h; exact ⟨rfl, by injection h with h; exact h.symm⟩
  | busy v e rest => rw [acceptIdle_busy w t hs] at h; cases h

/-- The state an idle block is in once it has accepted a command. -/
def State.accepted (s : State) : Instr → State
  | .wrpix x y black => s.writePixel x y black
  | .fbfill v => s.fbFill v
  | .flush => s.beginSend (encode .flush) (events .flush s.fb)
  | .clear => s.beginSend (encode .clear) (events .clear s.fb)
  | .dispmode => s.beginSend (encode .dispmode) (events .dispmode s.fb)
  | .testpat => s.beginSend (encode .testpat) (events .testpat s.fb)
  | .enable => s.setEN true
  | .disable => s.setEN false

/-- Every command goes through `acceptIdle`. -/
theorem exec_eq (i : Instr) (s : State) : exec i s = acceptIdle (encode i) s (s.accepted i) := by cases i <;> rfl

theorem exec_idle {s : State} (i : Instr) (h : s.seq = .idle) : exec i s = .next (s.accepted i) := by
  rw [exec_eq, acceptIdle_idle _ _ h]

theorem exec_next {i : Instr} {s t : State} (h : exec i s = .next t) : s.seq = .idle ∧ t = s.accepted i := by
  rw [exec_eq] at h; exact acceptIdle_next h

/-- Presenting a word answers a next state in two ways only: an illegal word recorded, or the command it spells. -/
theorem presentWord_next {w : Word} {s t : State} (h : presentWord w s = .next t) :
    s.seq = .idle ∧ ((∃ why, decode w = .illegal why ∧ t = s.raiseIllegal w) ∨
      ∃ i, decode w = .instr i ∧ t = s.accepted i) := by
  cases hs : s.seq with
  | busy v e rest => simp [presentWord, hs] at h
  | idle =>
    refine ⟨rfl, ?_⟩
    cases hd : decode w with
    | illegal why =>
      simp only [presentWord, hs, hd] at h
      injection h with h
      exact .inl ⟨why, rfl, h.symm⟩
    | instr i =>
      simp only [presentWord, hs, hd] at h
      exact .inr ⟨i, rfl, (exec_next h).2⟩

/-- A step answers a next state in two ways only: a word was presented to an idle block, or the sequencer moved, the
host having used up a move or none. -/
theorem step_next {s t : State} (h : step s = .next t) :
    (∃ w rest, (s.stream = .present w :: rest ∨ s.stream = .issue w :: rest) ∧ s.seq = .idle ∧
      presentWord w { s with stream := rest } = .next t) ∨
    t = s.sequence ∨ (∃ rest, s.stream = .pause :: rest ∧ t = { s with stream := rest }.sequence) := by
  unfold step advance at h
  have hm : ∀ {m rest}, s.stream = m :: rest → s.moved = { s with stream := rest } := by
    intro m rest hs
    simp [State.moved, hs]
  cases hst : s.stream with
  | nil =>
    simp only [hst] at h
    injection h with h
    exact .inr (.inl h.symm)
  | cons m rest =>
    cases m with
    | present w =>
      simp only [hst, hm hst] at h
      exact .inl ⟨w, rest, .inl rfl, (presentWord_next h).1, h⟩
    | pause =>
      simp only [hst, hm hst] at h
      injection h with h
      exact .inr (.inr ⟨rest, rfl, h.symm⟩)
    | issue w =>
      cases hq : s.seq with
      | idle =>
        simp only [hst, hq, hm hst] at h
        exact .inl ⟨w, rest, .inr rfl, rfl, h⟩
      | busy v e es =>
        simp only [hst, hq] at h
        injection h with h
        exact .inr (.inl h.symm)

/-- A step leaves the host's moves as they are or uses up the first. -/
theorem step_stream {s t : State} (h : step s = .next t) : t.stream = s.stream ∨ t.stream = s.stream.tail := by
  rcases step_next h with ⟨w, rest, hs, -, hp⟩ | rfl | ⟨rest, hs, rfl⟩
  · right
    have hr : t.stream = rest := by
      obtain ⟨-, ⟨why, -, rfl⟩ | ⟨i, -, rfl⟩⟩ := presentWord_next hp
      · rfl
      · cases i <;> simp [State.accepted]
    rcases hs with hs | hs <;> simp [hs, hr]
  · exact .inl (by simp)
  · exact .inr (by simp [hs])

/-- While the host waits, a busy block's step is the sequencer's. -/
theorem step_of_waits {s : State} (hw : s.HostWaits) (hb : s.isBusy = true) : step s = .next s.sequence := by
  unfold step advance
  rcases hw with h | ⟨w, rest, h⟩
  · simp [h]
  · cases hq : s.seq with
    | idle => simp [State.isBusy, hq] at hb
    | busy v e es => simp [h]

@[simp] theorem run_zero (s : State) : run 0 s = .next s := rfl

theorem core_run_succ (M : Host.Core) (n : Nat) (s : M.State) :
    M.run (n + 1) s = match M.step s with
      | .next t => M.run n t
      | .fault r => .fault r
      | .refused r => .refused r := rfl

theorem run_succ (n : Nat) (s : State) :
    run (n + 1) s = match step s with
      | .next t => run n t
      | .fault r => .fault r
      | .refused r => .refused r := by
  have h := core_run_succ Sys2Proof.core n s
  cases hs : step s <;> rw [show Sys2Proof.core.step s = _ from hs] at h <;> exact h

theorem run_succ_next {n : Nat} {s t : State} (h : step s = .next t) : run (n + 1) s = run n t := by
  rw [run_succ, h]

/-- Runs join. -/
theorem run_add (m n : Nat) {s t : State} (h : run m s = .next t) : run (m + n) s = run n t := by
  induction m generalizing s with
  | zero =>
    simp only [run_zero] at h
    injection h with h
    rw [Nat.zero_add, h]
  | succ m ih =>
    rw [run_succ] at h
    cases hs : step s with
    | next u =>
      rw [hs] at h
      rw [Nat.add_right_comm, run_succ_next hs, ih h]
    | fault r => rw [hs] at h; cases h
    | refused r => rw [hs] at h; cases h

/-- What holds of a state and is kept by every step holds along every run. -/
theorem run_keeps {P : State → Prop} (hstep : ∀ s t, P s → step s = .next t → P t) {n : Nat} {s t : State} (hs : P s)
    (h : run n s = .next t) : P t := by
  induction n generalizing s with
  | zero =>
    simp only [run_zero] at h
    injection h with h
    exact h ▸ hs
  | succ n ih =>
    rw [run_succ] at h
    cases hu : step s with
    | next u => rw [hu] at h; exact ih (hstep s u hs hu) h
    | fault r => rw [hu] at h; cases h
    | refused r => rw [hu] at h; cases h

/-- All the events of a list performed one after the other. -/
def State.performAll (s : State) (es : List SeqEvent) : State := es.foldl State.perform s

@[simp] theorem State.performAll_nil (s : State) : s.performAll [] = s := rfl

@[simp] theorem State.performAll_cons (s : State) (e : SeqEvent) (es : List SeqEvent) :
    s.performAll (e :: es) = (s.perform e).performAll es := rfl

theorem State.performAll_append (s : State) (es fs : List SeqEvent) :
    s.performAll (es ++ fs) = (s.performAll es).performAll fs := by simp [State.performAll]

@[simp] theorem State.performAll_stream (s : State) (es : List SeqEvent) : (s.performAll es).stream = s.stream := by
  induction es generalizing s with
  | nil => rfl
  | cons e es ih => simp [ih]

theorem State.perform_seq_update (s : State) (q : Seq) (e : SeqEvent) :
    { s with seq := q }.perform e = { s.perform e with seq := q } := by cases e <;> rfl

theorem State.performAll_seq_update (s : State) (q : Seq) (es : List SeqEvent) :
    { s with seq := q }.performAll es = { s.performAll es with seq := q } := by
  induction es generalizing s with
  | nil => rfl
  | cons e es ih => rw [State.performAll_cons, State.perform_seq_update, ih, State.performAll_cons]

/-- While the host waits, as many steps as there are pending events perform a first part of them. -/
theorem run_performs (w : Word) (es fs : List SeqEvent) {s : State} (hw : s.HostWaits)
    (hs : s.seq = Seq.ofPending w (es ++ fs)) :
    run es.length s = .next { s.performAll es with seq := Seq.ofPending w fs } := by
  induction es generalizing s with
  | nil =>
    rw [List.nil_append] at hs
    rw [List.length_nil, run_zero, State.performAll_nil, ← hs]
  | cons e es ih =>
    have hbusy : s.seq = .busy w e (es ++ fs) := hs
    have hstep : step s = .next { s.perform e with seq := Seq.ofPending w (es ++ fs) } := by
      rw [step_of_waits hw (by simp [State.isBusy, hbusy]), State.sequence_busy hbusy]
    rw [List.length_cons, run_succ_next hstep, ih (by simpa [State.HostWaits] using hw) rfl,
      State.performAll_seq_update]
    rfl

end Sys2Proof.Machine
end

