-- ==== Sys2Proof/Laws/BigStep.lean ====
section
/-! SUPPORT. The whole commands of Machine/BigStep.lean: loops of writes are fills, rows sent one by one are FLUSH's
bursts. -/

namespace Sys2Proof.Machine

/-- Writing one value at each of a list of addresses changes the framebuffer only. -/
theorem foldl_memWrite_frame (v : Byte) (l : List Addr) (s : State) :
    l.foldl (fun t a => t.memWrite a v) s = { s with fb := (l.foldl (fun t a => t.memWrite a v) s).fb } := by
  induction l generalizing s with
  | nil => rfl
  | cons b l ih => rw [List.foldl_cons, ih]; simp

theorem foldl_memWrite_wf (v : Byte) (l : List Addr) {s : State} (h : s.fb.wf) :
    (l.foldl (fun t a => t.memWrite a v) s).fb.wf := by
  induction l generalizing s with
  | nil => exact h
  | cons b l ih => exact ih (Memory.wf_write h b v)

theorem foldl_memWrite_read (v : Byte) (l : List Addr) (s : State) (a : Addr) :
    (l.foldl (fun t a => t.memWrite a v) s).fb.read a = if a ∈ l then v else s.fb.read a := by
  induction l generalizing s with
  | nil => simp
  | cons b l ih =>
    rw [List.foldl_cons, ih, State.memWrite_fb, Memory.read_write]
    by_cases h : a ∈ l <;> by_cases h' : a = b <;> simp [h, h']

/-- The loop over all 2048 bytes is the fill. -/
theorem foldl_memWrite_all (v : Byte) {s : State} (h : s.fb.wf) :
    (List.finRange 2048).foldl (fun t a => t.memWrite a v) s = s.fbFill v := by
  have hfb : ((List.finRange 2048).foldl (fun t a => t.memWrite a v) s).fb = (s.fbFill v).fb := by
    refine Memory.ext_of_wf (foldl_memWrite_wf v _ h) (Memory.wf_fill v) (fun a => ?_)
    rw [foldl_memWrite_read, if_pos (List.mem_finRange a), State.fbFill_fb, Memory.read_fill]
  rw [foldl_memWrite_frame, hfb]
  rfl

theorem State.whole_fbfill {s : State} (h : s.fb.wf) (v : Byte) : s.whole (.fbfill v) = s.fbFill v := by
  rw [State.whole, State.wholeFbfill, foldl_memWrite_all v h]

theorem State.whole_clear {s : State} (h : s.fb.wf) : s.whole .clear = s.performAll (events .clear s.fb) := by
  have hwf : (((s.setCS true).busWrite clearSeq).setCS false).fb.wf := h
  have hp : s.performAll (events .clear s.fb) = (((s.setCS true).busWrite clearSeq).setCS false).fbFill clearFill := by
    simp only [events, bracketed, List.map_cons, List.map_nil, List.cons_append, List.nil_append, State.performAll_cons,
      State.performAll_nil, State.perform_setCS, State.perform_write, State.perform_fbFill]
  rw [hp, State.whole, State.wholeClear, foldl_memWrite_all _ hwf]

theorem foldl_rows (l : List Coord) (s : State) :
    l.foldl (fun t i => t.busWrite (rowAddr i :: rowBytes t.fb i)) s =
      s.performAll ((l.map (rowRecord s.fb)).map .write) := by
  induction l generalizing s with
  | nil => rfl
  | cons i l ih =>
    rw [List.foldl_cons, ih, State.busWrite_fb, List.map_cons, List.map_cons, State.performAll_cons,
      State.perform_write]
    rfl

theorem State.whole_flush (s : State) : s.whole .flush = s.performAll (events .flush s.fb) := by
  have hfb : ((s.setCS true).busWrite [startByte]).fb = s.fb := rfl
  simp only [State.whole, State.wholeFlush, foldl_rows, hfb, events, bracketed, flushBursts, List.map_append,
    List.map_cons, List.map_nil, State.performAll_append, State.performAll_cons, State.performAll_nil,
    State.perform_setCS, State.perform_write]

theorem State.whole_dispmode (s : State) : s.whole .dispmode = s.performAll (events .dispmode s.fb) := rfl

theorem State.whole_testpat (s : State) : s.whole .testpat = s.performAll (events .testpat s.fb) := rfl

@[simp] theorem State.performAll_seq (s : State) (es : List SeqEvent) : (s.performAll es).seq = s.seq := by
  induction es generalizing s with
  | nil => rfl
  | cons e es ih => simp [ih]

theorem State.perform_stream_update (s : State) (m : List HostMove) (e : SeqEvent) :
    { s with stream := m }.perform e = { s.perform e with stream := m } := by cases e <;> rfl

theorem State.performAll_stream_update (s : State) (m : List HostMove) (es : List SeqEvent) :
    { s with stream := m }.performAll es = { s.performAll es with stream := m } := by
  induction es generalizing s with
  | nil => rfl
  | cons e es ih => rw [State.performAll_cons, State.perform_stream_update, ih, State.performAll_cons]

end Sys2Proof.Machine
end

