-- ==== Sys2Proof/Laws/Drawing.lean ====
section
/-! SUPPORT. Lists of WRPIX commands, and the loop of CIRCLE. -/

namespace Sys2Proof.Machine

/-- The command writes one pixel, black or white as `black` says. -/
def IsPlot (black : Bool) (i : Instr) : Prop := ∃ x y, i = .wrpix x y black

/-- WRPIX commands run one after the other from an idle block. -/
theorem execAll_plots {is : List Instr} (hp : ∀ i ∈ is, ∃ b, IsPlot b i) {s : State} (h : s.seq = .idle) :
    execAll is s = .next (is.foldl State.accepted s) := by
  induction is generalizing s with
  | nil => rfl
  | cons i is ih =>
    obtain ⟨b, x, y, rfl⟩ := hp i List.mem_cons_self
    rw [execAll, exec_idle _ h]
    exact ih (fun j hj => hp j (List.mem_cons_of_mem _ hj)) (by simp [State.accepted, h])

/-- WRPIX commands change the framebuffer only. -/
theorem foldl_plots_frame {is : List Instr} (hp : ∀ i ∈ is, ∃ b, IsPlot b i) (s : State) :
    is.foldl State.accepted s = { s with fb := (is.foldl State.accepted s).fb } := by
  induction is generalizing s with
  | nil => rfl
  | cons i is ih =>
    obtain ⟨b, x, y, rfl⟩ := hp i List.mem_cons_self
    have hw : s.accepted (.wrpix x y b) = { s with fb := (s.writePixel x y b).fb } := by
      simp only [State.accepted, State.writePixel]
      split <;> rfl
    rw [List.foldl_cons, ih (fun j hj => hp j (List.mem_cons_of_mem _ hj)), hw]

theorem coord_ofNat (c : Coord) : (BitVec.ofNat 8 c.val).toNat = c.val := by
  have := c.isLt
  simp only [BitVec.toNat_ofNat]
  omega

/-- A pixel after one WRPIX, its operands as the word carries them. -/
theorem pixel_writePixel (s : State) (x y : Byte) (b : Bool) (i j : Coord) :
    (s.writePixel x y b).pixel i j = if x.toNat = i.val ∧ y.toNat = j.val then !b else s.pixel i j := by
  have hi := i.isLt
  have hj := j.isLt
  by_cases h : x.toNat < 128 ∧ y.toNat < 128
  · rw [State.writePixel_in s b h.1 h.2, State.pixel_writePixelAt]
    simp only [Fin.ext_iff, eq_comm (a := i.val), eq_comm (a := j.val)]
  · rw [State.writePixel_out s b (by omega), if_neg (by omega)]

/-- A pixel after WRPIX commands of one colour: that colour if one of them names it, else as before. -/
theorem pixel_foldl_plots {is : List Instr} {b : Bool} (hp : ∀ i ∈ is, IsPlot b i) (s : State) (i j : Coord) :
    (is.foldl State.accepted s).pixel i j =
      if Instr.wrpix (BitVec.ofNat 8 i.val) (BitVec.ofNat 8 j.val) b ∈ is then !b else s.pixel i j := by
  induction is generalizing s with
  | nil => simp
  | cons c is ih =>
    obtain ⟨x, y, rfl⟩ := hp c List.mem_cons_self
    rw [List.foldl_cons, ih (fun d hd => hp d (List.mem_cons_of_mem _ hd))]
    have hc : (Instr.wrpix (BitVec.ofNat 8 i.val) (BitVec.ofNat 8 j.val) b = Instr.wrpix x y b) ↔
        x.toNat = i.val ∧ y.toNat = j.val := by
      rw [Instr.wrpix.injEq, ← BitVec.toNat_inj, ← BitVec.toNat_inj, coord_ofNat, coord_ofNat]
      simp [eq_comm]
    simp only [State.accepted, pixel_writePixel, List.mem_cons, hc]
    by_cases h1 : Instr.wrpix (BitVec.ofNat 8 i.val) (BitVec.ofNat 8 j.val) b ∈ is <;> simp [h1]

/-- `trunc8` is the remainder by 256 (00_scope.md R11). -/
theorem trunc8_toNat (z : Int) : (trunc8 z).toNat = (z % 256).toNat := by
  simp [trunc8, BitVec.toNat_ofInt]

/-- One iteration of CIRCLE brings `x - y` down by at least one: one of the two tests fires. -/
theorem circleNext_closer (r : Int) (v : CircleVars) :
    (circleNext r v).x - (circleNext r v).y ≤ v.x - v.y - 1 := by
  unfold circleNext circleSecond circleFirst
  split <;> split <;> simp_all
  all_goals omega

/-- `r` tests are enough for CIRCLE's loop: with more allowed, it runs the same. -/
theorem circleStates_enough (r : Int) (n k : Nat) (v : CircleVars) (h : v.x - v.y < n) :
    circleStates r (n + k) v = circleStates r n v := by
  induction n generalizing v with
  | zero =>
    cases k with
    | zero => rfl
    | succ k =>
      have : ¬ v.x ≥ v.y := by simp at h; omega
      simp [circleStates, this]
  | succ n ih =>
    have := circleNext_closer r v
    rw [Nat.add_right_comm, circleStates, circleStates, ih (circleNext r v) (by push_cast at h; omega)]

theorem circleStates_start_enough (r k : Nat) :
    circleStates r (r + k) (circleStart r) = circleStates r r (circleStart r) :=
  circleStates_enough r r k _ (by simp [circleStart])

end Sys2Proof.Machine
end

