-- ==== Sys2Proof/Laws/PerInstr.lean ====
section
/-! SUPPORT. The family RowMatch: the word of an instruction is one its row of the opcode map selects. -/

namespace Sys2Proof.Laws.RowMatch

/-- `(cmd & mask) = match` for the instruction's own row (30_encoding.md R85). -/
def Statement (i : Instr) : Prop := encode i &&& rowMask i = rowMatch i

theorem wrpix (x y : Byte) (black : Bool) : Statement (.wrpix x y black) := by
  have h : (0x1#4 ++ 0#11 ++ BitVec.ofBool black ++ y ++ x) &&& (0xF#4 ++ 0x7FF#11 ++ 0#1 ++ 0#8 ++ 0#8) =
      0x1#4 ++ 0#11 ++ 0#1 ++ 0#8 ++ 0#8 := by
    simp only [BitVec.and_append, BitVec.and_zero]
    rfl
  exact h

theorem fbfill (v : Byte) : Statement (.fbfill v) := by
  have h : (0x2#4 ++ 0#20 ++ v) &&& (0xF#4 ++ 0xFFFFF#20 ++ 0#8) = 0x2#4 ++ 0#20 ++ 0#8 := by
    simp only [BitVec.and_append, BitVec.and_zero]
    rfl
  exact h

theorem flush : Statement .flush := by unfold Statement; rfl
theorem clear : Statement .clear := by unfold Statement; rfl
theorem dispmode : Statement .dispmode := by unfold Statement; rfl
theorem testpat : Statement .testpat := by unfold Statement; rfl
theorem enable : Statement .enable := by unfold Statement; rfl
theorem disable : Statement .disable := by unfold Statement; rfl

end Sys2Proof.Laws.RowMatch
end

