-- ==== Sys2Proof/Tests/Slice0.lean ====
section
/-! SUPPORT. Tests of the model on values written out from spec/ (mostly 95_test_vectors.md), the smoke tests of
WellFormed, and for each statement with hypotheses a witness that meets them together. -/

namespace Sys2Proof.Tests

open Sys2Proof Sys2Proof.Machine

/-- Something of the state a step answers, none if it stops. -/
def after {α : Type} (o : Host.Outcome State Fault Refusal) (f : State → α) : Option α :=
  match o with
  | .next s => some (f s)
  | .fault _ => none
  | .refused _ => none

/-- The fault a step answers. -/
def faultOf (o : Host.Outcome State Fault Refusal) : Option Fault :=
  match o with
  | .next _ => none
  | .fault r => some r
  | .refused _ => none

/-- The reset state with every framebuffer byte `v`. -/
def filled (v : Byte) : State := { State.reset with fb := Memory.fill v }

/-- The reset state whose host makes these moves. -/
def hosted (moves : List HostMove) : State := State.resetWith Config.defaultBitPos moves 0

/-- The other bit order of 95_test_vectors.md, `BITPOS(k) = 7 − k`. -/
def reversedBitPos : BitPos := ⟨#v[7, 6, 5, 4, 3, 2, 1, 0], by decide⟩

/-- A block busy with DISPMODE, just accepted. -/
def busyDispmode : State := State.reset.beginSend 0x50000000#32 (events .dispmode [])

/-! WellFormed: an ill-formed line for each check, and the bounds that pass. -/

theorem test_wf_wrpix_x : (AsmLine.wrpix 256 0 0).wellFormed = false := by decide
theorem test_wf_wrpix_y : (AsmLine.wrpix 0 256 0).wellFormed = false := by decide
theorem test_wf_wrpix_b : (AsmLine.wrpix 0 0 2).wellFormed = false := by decide
theorem test_wf_fbfill_v : (AsmLine.fbfill 256).wellFormed = false := by decide
theorem test_wf_word : (AsmLine.word 4294967296).wellFormed = false := by decide
theorem test_wf_rect : (AsmLine.rect 256 0 0 0).wellFormed = false ∧ (AsmLine.rect 0 256 0 0).wellFormed = false ∧
    (AsmLine.rect 0 0 256 0).wellFormed = false ∧ (AsmLine.rect 0 0 0 256).wellFormed = false := by decide
theorem test_wf_circle : (AsmLine.circle 256 0 0 0).wellFormed = false ∧
    (AsmLine.circle 0 256 0 0).wellFormed = false ∧ (AsmLine.circle 0 0 256 0).wellFormed = false ∧
    (AsmLine.circle 0 0 0 2).wellFormed = false := by decide
theorem test_wf_bounds : (AsmLine.wrpix 255 255 1).wellFormed = true ∧ (AsmLine.word 4294967295).wellFormed = true := by
  decide

/-! Decoding: words written out bit by bit from 30_encoding.md R81-R83 (and 95_test_vectors.md 2.1). -/

theorem test_decode_wrpix_bits : decode 0b0001_00000000000_1_00000011_00000101#32 = .instr (.wrpix 5#8 3#8 true) := by
  decide
theorem test_decode_wrpix_white : decode 0b0001_00000000000_0_01111111_01111111#32 = .instr (.wrpix 127#8 127#8 false) := by
  decide
theorem test_decode_wrpix_far : decode 0x1001FFFF#32 = .instr (.wrpix 255#8 255#8 true) := by decide
theorem test_decode_wrpix_reserved : decode 0x10020000#32 = .illegal .reservedBits ∧
    decode 0x1FFFFFFF#32 = .illegal .reservedBits := by decide
theorem test_decode_fbfill_bits : decode 0b0010_00000000000000000000_11111111#32 = .instr (.fbfill 0xFF#8) := by decide
theorem test_decode_fbfill_reserved : decode 0x20000100#32 = .illegal .reservedBits := by decide
theorem test_decode_flush_bits : decode 0b0011_0000000000000000000000000000#32 = .instr .flush := by decide
theorem test_decode_flush_reserved : decode 0x30000001#32 = .illegal .reservedBits := by decide
theorem test_decode_clear_bits : decode 0b0100_0000000000000000000000000000#32 = .instr .clear := by decide
theorem test_decode_dispmode_bits : decode 0b0101_0000000000000000000000000000#32 = .instr .dispmode := by decide
theorem test_decode_testpat_bits : decode 0b0110_0000000000000000000000000000#32 = .instr .testpat := by decide
theorem test_decode_enable_bits : decode 0b0111_0000000000000000000000000000#32 = .instr .enable := by decide
theorem test_decode_disable_bits : decode 0b1000_0000000000000000000000000000#32 = .instr .disable := by decide
theorem test_decode_illegal_opcodes : decode 0x00000000#32 = .illegal .opcode ∧ decode 0x90000000#32 = .illegal .opcode ∧
    decode 0xF0000000#32 = .illegal .opcode := by decide
theorem test_decode_table_word : decodeTableWord 32 0x100103C8 = some (.wrpix 200#8 3#8 true) ∧
    decodeTableWord 32 0x90000000 = none := by decide

/-! REVERSE8 and ROWADDR (95_test_vectors.md 2.2, 40_row_address_transform.md R114). -/

theorem test_reverse8 : reverse8 0x0F#8 = 0xF0#8 ∧ reverse8 0x12#8 = 0x48#8 ∧ reverse8 0xA5#8 = 0xA5#8 := by decide

theorem test_rowAddr_table : (List.finRange 128).map rowAddr =
    [0x80#8, 0x40#8, 0xC0#8, 0x20#8, 0xA0#8, 0x60#8, 0xE0#8, 0x10#8, 0x90#8, 0x50#8, 0xD0#8, 0x30#8, 0xB0#8, 0x70#8, 0xF0#8, 0x08#8] ++
    [0x88#8, 0x48#8, 0xC8#8, 0x28#8, 0xA8#8, 0x68#8, 0xE8#8, 0x18#8, 0x98#8, 0x58#8, 0xD8#8, 0x38#8, 0xB8#8, 0x78#8, 0xF8#8, 0x04#8] ++
    [0x84#8, 0x44#8, 0xC4#8, 0x24#8, 0xA4#8, 0x64#8, 0xE4#8, 0x14#8, 0x94#8, 0x54#8, 0xD4#8, 0x34#8, 0xB4#8, 0x74#8, 0xF4#8, 0x0C#8] ++
    [0x8C#8, 0x4C#8, 0xCC#8, 0x2C#8, 0xAC#8, 0x6C#8, 0xEC#8, 0x1C#8, 0x9C#8, 0x5C#8, 0xDC#8, 0x3C#8, 0xBC#8, 0x7C#8, 0xFC#8, 0x02#8] ++
    [0x82#8, 0x42#8, 0xC2#8, 0x22#8, 0xA2#8, 0x62#8, 0xE2#8, 0x12#8, 0x92#8, 0x52#8, 0xD2#8, 0x32#8, 0xB2#8, 0x72#8, 0xF2#8, 0x0A#8] ++
    [0x8A#8, 0x4A#8, 0xCA#8, 0x2A#8, 0xAA#8, 0x6A#8, 0xEA#8, 0x1A#8, 0x9A#8, 0x5A#8, 0xDA#8, 0x3A#8, 0xBA#8, 0x7A#8, 0xFA#8, 0x06#8] ++
    [0x86#8, 0x46#8, 0xC6#8, 0x26#8, 0xA6#8, 0x66#8, 0xE6#8, 0x16#8, 0x96#8, 0x56#8, 0xD6#8, 0x36#8, 0xB6#8, 0x76#8, 0xF6#8, 0x0E#8] ++
    [0x8E#8, 0x4E#8, 0xCE#8, 0x2E#8, 0xAE#8, 0x6E#8, 0xEE#8, 0x1E#8, 0x9E#8, 0x5E#8, 0xDE#8, 0x3E#8, 0xBE#8, 0x7E#8, 0xFE#8, 0x01#8] := by
  decide +kernel

/-! WRPIX and FBFILL (95_test_vectors.md 2.3). -/

theorem test_wrpix_byte7 : after (exec (.wrpix 63#8 10#8 true) (filled 0xFF#8)) (fun s => s.memRead 167) = some 0x7F#8 := by
  decide +kernel
theorem test_wrpix_white : after (exec (.wrpix 5#8 3#8 false) State.reset) (fun s => s.fb) = some [(48, 0x20#8)] := by
  decide +kernel
theorem test_wrpix_reversed_bits :
    (({ filled 0xFF#8 with bitPos := reversedBitPos }).writePixel 0#8 0#8 true).memRead 0 = 0x7F#8 := by decide +kernel
theorem test_fbfill : after (exec (.fbfill 0x5A#8) State.reset) (fun s => (s.memRead 0, s.memRead 2047)) =
    some (0x5A#8, 0x5A#8) := by decide +kernel

/-! The panel commands (95_test_vectors.md 2.4). -/

theorem test_flush_status : after (exec .flush State.reset) (fun s => (s.status, s.sequence.status)) = some (1#32, 3#32) := by
  decide +kernel
theorem test_flush_row_record : (rowRecord (Memory.write [] 2047 0x7F#8) 127) =
    0x01#8 :: (List.replicate 15 0x00#8 ++ [0x7F#8]) := by decide +kernel
theorem test_clear : after (run 5 (hosted [.issue 0x40000000#32])) (fun s => (burstsOf s.trace, s.memRead 1000, s.status)) =
    some ([[0x20#8, 0x00#8]], 0xFF#8, 0#32) := by decide +kernel
theorem test_dispmode : after (run 4 (hosted [.issue 0x50000000#32])) (fun s => s.trace.map TraceEvent.sent) =
    some [.setEN false, .setCS false, .setCS true, .write [0x00#8, 0x00#8], .setCS false] := by decide +kernel
theorem test_testpat : after (run 4 (hosted [.issue 0x60000000#32])) (fun s => burstsOf s.trace) =
    some [[0x80#8, 0x82#8, 0x33#8, 0x33#8, 0x33#8, 0x33#8, 0x33#8, 0x33#8, 0x33#8, 0x33#8, 0x33#8, 0x33#8, 0x33#8, 0x33#8,
      0x33#8, 0x33#8, 0x33#8, 0x33#8, 0x00#8, 0x00#8]] := by decide +kernel
theorem test_enable : after (exec .enable State.reset) (fun s => (s.status, s.trace)) =
    some (4#32, [.setEN false, .setCS false, .setEN true]) := by decide +kernel
theorem test_disable : after (exec .disable { State.reset with en := true }) (fun s => s.status) = some 0#32 := by
  decide +kernel

/-! Errors (95_test_vectors.md 2.5, P5). -/

theorem test_illegal : after (step (hosted [.present 0#32])) (fun s => (s.status, s.faults)) =
    some (8#32, [.illegalCommand 0#32]) := by decide +kernel
theorem test_illegal_then_enable : after (run 2 (hosted [.issue 0#32, .issue 0x70000000#32])) (fun s => s.status) =
    some 0xC#32 := by decide +kernel
theorem test_overlap : faultOf (step { busyDispmode with stream := [.present 0x10010000#32] }) =
    some (.overlap 0x10010000#32) := by decide +kernel
theorem test_overlap_before_illegal : faultOf (step { busyDispmode with stream := [.present 0#32] }) =
    some (.overlap 0#32) := by decide +kernel

/-! The pseudo-operations (95_test_vectors.md 2.6 to 2.8, 42_drawing_pseudo_ops.md R154). -/

theorem test_rect_words : (rect 2 2 4 3).map encode =
    [0x10010202#32, 0x10010402#32, 0x10010203#32, 0x10010403#32, 0x10010204#32, 0x10010404#32, 0x10010205#32,
      0x10010405#32, 0x10010202#32, 0x10010205#32, 0x10010302#32, 0x10010305#32, 0x10010402#32, 0x10010405#32] := by
  decide +kernel
theorem test_rect_counts : [rect 0 0 0 0, rect 10 10 0 3, rect 10 10 3 0, rect 1 1 1 1, rect 125 125 10 10, rect 120 0 8 2,
    rect 128 0 5 5].map List.length = [0, 3, 3, 4, 6, 20, 0] := by decide +kernel
theorem test_circle_states : circleStates 10 10 (circleStart 10) =
    [⟨9, 0, 1, 1, -19⟩, ⟨9, 1, 1, 3, -18⟩, ⟨9, 2, 1, 5, -15⟩, ⟨9, 3, 1, 7, -10⟩, ⟨9, 4, 1, 9, -3⟩, ⟨8, 5, 3, 11, -11⟩,
      ⟨8, 6, 3, 13, 0⟩, ⟨7, 7, 5, 15, -2⟩] := by decide +kernel
theorem test_circle_words : ((circle 64 64 3 true).map encode).take 4 =
    [0x10014042#32, 0x10014240#32, 0x10014240#32, 0x1001403E#32] := by decide +kernel
theorem test_circle_counts : [0, 1, 2, 3, 5, 10, 20, 50].map (fun r => (circleAllPoints 64 64 r).length) =
    [0, 8, 16, 24, 32, 64, 120, 288] := by decide +kernel
theorem test_circle_wraps : Instr.wrpix 57#8 0#8 true ∈ (circle 0 0 200 true).take 8 ∧
    Instr.wrpix 0#8 57#8 true ∈ (circle 0 0 200 true).take 8 := by decide +kernel
theorem test_checker_count : checker.length = 16384 := by decide +kernel

/-! The assembler (30_encoding.md R89, R91). -/

theorem test_assemble_text : (parseLine ['W', 'R', 'P', 'I', 'X', ' ', '5', ',', ' ', '3', ',', ' ', 'b', 'l', 'a', 'c',
    'k']).bind assemble = some [0x10010305#32] := by decide +kernel
theorem test_assemble_hex : (parseLine ['F', 'B', 'F', 'I', 'L', 'L', ' ', '0', 'x', 'F', 'F']).bind assemble =
    some [0x200000FF#32] := by decide +kernel
theorem test_assemble_refuses : (parseLine ['F', 'B', 'F', 'I', 'L', 'L', ' ', '2', '5', '6']).bind assemble = none := by
  decide +kernel

/-! Memory: reset is canonical, and a byte written back to 0 is listed no more. -/

theorem test_reset_memory_wf : State.reset.fb.wf := by decide
theorem test_write_zero_unlists : ((Memory.write [] 5 0x01#8).write 5 0x00#8) = [] := by decide +kernel

/-! Witnesses: for each statement with hypotheses, values that meet them together. -/

theorem witness_idle : State.reset.seq = .idle := rfl
theorem witness_waits_no_moves : State.reset.seq = .idle ∧ State.reset.HostWaits := ⟨rfl, .inl rfl⟩
theorem witness_waits_to_issue : (hosted [.issue 0x30000000#32]).seq = .idle ∧ (hosted [.issue 0x30000000#32]).HostWaits :=
  ⟨rfl, .inr ⟨_, _, rfl⟩⟩

theorem witness_EncodeOfDecodeGivesTheWord : decode 0x100103C8#32 = .instr (.wrpix 200#8 3#8 true) := by decide
theorem witness_OperandsComeFromTheirFields : decode 0x1001FF00#32 = .instr (.wrpix 0#8 255#8 true) ∧
    decode 0x200000FF#32 = .instr (.fbfill 255#8) := by decide
theorem witness_IllegalWordsAreThoseListed : (∃ why, decode 0x0FFFFFFF#32 = .illegal why) ∧
    (∃ why, decode 0x90000000#32 = .illegal why) ∧ (∃ why, decode 0x18000000#32 = .illegal why) ∧
    (∃ why, decode 0x28000000#32 = .illegal why) ∧ ∃ why, decode 0x88000000#32 = .illegal why :=
  ⟨⟨.opcode, by decide⟩, ⟨.opcode, by decide⟩, ⟨.reservedBits, by decide⟩, ⟨.reservedBits, by decide⟩,
    ⟨.reservedBits, by decide⟩⟩
theorem witness_AssemblerEmitsTheTable : assemble (.wrpix 255 255 1) = some [0x1001FFFF#32] ∧
    assemble (.wrpix 256 255 1) = none ∧ assemble (.fbfill 255) = some [0x200000FF#32] ∧ assemble (.fbfill 256) = none ∧
    assemble (.word 4294967295) = some [0xFFFFFFFF#32] ∧ assemble (.word 4294967296) = none := by decide +kernel
theorem witness_StatusWordShowsTheState : busyDispmode.status.getLsbD 0 = true ∧ State.reset.status.getLsbD 0 = false := by
  decide +kernel
theorem witness_BitPosNeverChanges : run 1 State.reset = .next State.reset := rfl
theorem witness_ReverseIsEndToEnd : (reverse8 0x01#8).getLsbD (7 - 0) = true ∧ (reverse8 0x80#8).getLsbD (7 - 7) = true := by
  decide
theorem witness_RowAddressIsTheReversedIndex : (rowAddr 0).getLsbD (7 - 0) = true ∧ (rowAddr 127).getLsbD (7 - 7) = true := by
  decide
theorem witness_WrpixWritesOneBit : State.reset.seq = .idle ∧ (127#8 : Byte).toNat < 128 := by decide
theorem witness_WrpixOutOfRangeIsSilent : State.reset.seq = .idle ∧ 128 ≤ (128#8 : Byte).toNat := by decide
theorem witness_PixelReadsBackAndOthersKeep : State.reset.seq = .idle ∧ (128 ≤ (0#8 : Byte).toNat ∨ 128 ≤ (255#8 : Byte).toNat) := by
  decide
theorem witness_FbfillWritesEveryByte : (filled 0x01#8).seq = .idle := rfl
theorem witness_FramebufferCommandsIgnoreTheLines : State.reset.seq = .idle ∧ ∃ v, Instr.fbfill 3#8 = .fbfill v :=
  ⟨rfl, _, rfl⟩
theorem witness_SendsAreAccepted : State.reset.seq = .idle ∧ isSend .flush = true ∧ isSend .clear = true ∧
    isSend .dispmode = true ∧ isSend .testpat = true := by decide
theorem witness_FlushSendsTheFrame : State.reset.seq = .idle ∧ State.reset.HostWaits := witness_waits_no_moves
theorem witness_FlushByteStream : (hosted [.issue 0x30000000#32]).seq = .idle ∧ (hosted [.issue 0x30000000#32]).HostWaits :=
  witness_waits_to_issue
theorem witness_ClearSendsThenFills : State.reset.seq = .idle ∧ State.reset.HostWaits := witness_waits_no_moves
theorem witness_ClearFillsAfterTheBracket : State.reset.seq = .idle ∧ State.reset.HostWaits := witness_waits_no_moves
theorem witness_DispmodeSends : State.reset.seq = .idle ∧ State.reset.HostWaits := witness_waits_no_moves
theorem witness_TestpatSends : State.reset.seq = .idle ∧ State.reset.HostWaits := witness_waits_no_moves
theorem witness_EnableDrivesTheLineHigh : State.reset.seq = .idle ∧ ({ State.reset with en := true } : State).seq = .idle :=
  ⟨rfl, rfl⟩
theorem witness_DisableDrivesTheLineLow : State.reset.seq = .idle ∧ ({ State.reset with en := true } : State).seq = .idle :=
  ⟨rfl, rfl⟩
theorem witness_EverySendIsBracketed : State.reset.seq = .idle ∧ State.reset.HostWaits ∧ isSend .clear = true ∧
    isSend .flush = true := ⟨rfl, .inl rfl, rfl, rfl⟩
theorem witness_SendsIgnoreEnable : ∃ t u, State.reset.stream = [] ∧ isSend .dispmode = true ∧
    exec .dispmode State.reset = .next t ∧ run 2 t = .next u := ⟨_, _, rfl, rfl, rfl, rfl⟩
theorem witness_BusAnswersInfluenceNothing : AgreeButForAnswers State.reset { State.reset with bursts := 7 } ∧
    run 1 State.reset = .next State.reset := ⟨⟨rfl, rfl⟩, rfl⟩
theorem witness_BusAnswersInfluenceNothing_fault :
    AgreeButForAnswers { busyDispmode with stream := [.present 0#32] }
      { busyDispmode with stream := [.present 0#32], bursts := 7 } ∧
    run 1 { busyDispmode with stream := [.present 0#32] } = .fault (.overlap 0#32) := ⟨⟨rfl, rfl⟩, rfl⟩
theorem witness_StepRunsTheDecodedCommand : (hosted [.present 0x70000000#32, .pause]).seq = .idle ∧
    decode 0x70000000#32 = .instr .enable ∧
    (hosted [.present 0x70000000#32, .pause]).stream = .present 0x70000000#32 :: [.pause] := ⟨rfl, rfl, rfl⟩
theorem witness_FetchedWordRuns : State.reset.seq = .idle ∧ decodeTableWord 32 0x30000000 = some .flush := by decide
theorem witness_EveryCommandCompletes : busyDispmode.HostWaits ∧ busyDispmode.pending.length = 3 ∧
    2 < busyDispmode.pending.length ∧ State.reset.pending.length = 0 := ⟨.inl rfl, by decide, by decide, rfl⟩
theorem witness_StepFormEqualsWholeCommand : State.reset.seq = .idle ∧ State.reset.fb.wf ∧ State.reset.HostWaits :=
  ⟨rfl, Memory.wf_nil, .inl rfl⟩
theorem witness_IssuedCommandsTakeEffectInOrder : (hosted (hostMoves [.clear, .enable])).seq = .idle ∧
    (hosted (hostMoves [.clear, .enable])).fb.wf ∧
    (hosted (hostMoves [.clear, .enable])).stream = hostMoves [.clear, .enable] := ⟨rfl, Memory.wf_nil, rfl⟩

/-- The reset state of any host meets the invariant. -/
theorem hosted_inv (moves : List HostMove) : (hosted moves).Inv :=
  ⟨Memory.wf_nil, rfl, rfl, by simp [hosted, State.resetWith], by simp [hosted, State.resetWith]⟩

/-- The last step of CLEAR, from reset. -/
def clearFilling : State := { State.reset with seq := .busy 0x40000000#32 (.fbFill 0xFF#8) [] }

theorem clearFilling_inv : clearFilling.Inv :=
  ⟨Memory.wf_nil, ⟨.clear, bracketed [clearSeq], rfl, rfl, rfl, rfl⟩, rfl, by simp [clearFilling, State.reset, State.resetWith],
    by simp [clearFilling, State.reset, State.resetWith]⟩

theorem witness_InvariantIsKept : ∃ t, (hosted [.issue 0x30000000#32]).Inv ∧
    step (hosted [.issue 0x30000000#32]) = .next t := ⟨_, hosted_inv _, rfl⟩
theorem witness_InvariantIsKept_busy : ∃ t, clearFilling.Inv ∧ step clearFilling = .next t := ⟨_, clearFilling_inv, rfl⟩
theorem witness_NoByteWhileDeselected : ∃ t before after bytes answer,
    run 3 (State.resetWith Config.defaultBitPos [.issue 0x50000000#32] 0) = .next t ∧ t.Clean ∧
      t.trace = before ++ .write bytes answer :: after :=
  ⟨_, [.setEN false, .setCS false, .setCS true], [], _, _, rfl, ⟨rfl, rfl⟩, rfl⟩
theorem witness_ChipSelectIsTheSequencers : ∃ t, step busyDispmode = .next t ∧ t.cs ≠ busyDispmode.cs ∧
    busyDispmode.Inv :=
  ⟨_, rfl, by decide, Memory.wf_nil, ⟨.dispmode, [], rfl, rfl, rfl, rfl⟩, rfl, by decide, by decide⟩
theorem witness_EnableIsWrittenByTwoCommands : ∃ t, (hosted [.issue 0x70000000#32]).Inv ∧
    step (hosted [.issue 0x70000000#32]) = .next t ∧ t.en ≠ (hosted [.issue 0x70000000#32]).en :=
  ⟨_, hosted_inv _, rfl, by decide⟩
theorem witness_FramebufferHasThreeWriters : ∃ t, (hosted [.issue 0x10000000#32]).Inv ∧
    step (hosted [.issue 0x10000000#32]) = .next t ∧ t.fb ≠ (hosted [.issue 0x10000000#32]).fb :=
  ⟨_, hosted_inv _, rfl, by decide +kernel⟩
theorem witness_FramebufferHasThreeWriters_clear : ∃ t, clearFilling.Inv ∧ step clearFilling = .next t ∧
    t.fb ≠ clearFilling.fb := ⟨_, clearFilling_inv, rfl, by decide +kernel⟩
theorem witness_PresentingWhileBusyIsOverlap : ({ busyDispmode with stream := [.present 5#32] } : State).seq ≠ .idle ∧
    ({ busyDispmode with stream := [.present 5#32] } : State).stream = .present 5#32 :: [] := ⟨by decide, rfl⟩
theorem witness_OverlapIsTheOnlyStop : step { busyDispmode with stream := [.present 5#32] } = .fault (.overlap 5#32) := rfl

/-- A host that presents ENABLE at once and issues DISPMODE and FLUSH. -/
def obedient : State := hosted [.present 0x70000000#32, .issue 0x50000000#32, .issue 0x30000000#32]

/-- Along its run the block is idle while the host still has a word to present. -/
theorem obedient_obeys : obedient.HostObeys := by
  have hstep : ∀ s t, (s = obedient ∨ ∀ w, .present w ∉ s.stream) → step s = .next t →
      t = obedient ∨ ∀ w, .present w ∉ t.stream := by
    rintro s t (rfl | hs) ht
    · injection ht with ht
      exact .inr (by subst ht; simp [obedient, hosted, State.resetWith, State.moved])
    · exact .inr fun w hw => hs w ((step_stream ht).elim (· ▸ hw) fun h => List.mem_of_mem_tail (h ▸ hw))
  intro n t h hb w rest hst
  rcases run_keeps hstep (.inl rfl) h with rfl | hp
  · exact hb rfl
  · exact hp w (by simp [hst])

theorem witness_ObedientHostNeverFaults : obedient.Clean ∧ obedient.HostSpells ∧ obedient.HostObeys := by
  refine ⟨⟨rfl, rfl⟩, ?_, obedient_obeys⟩
  rintro m hm w hw
  simp only [obedient, hosted, State.resetWith, List.mem_cons, List.not_mem_nil, or_false] at hm
  rcases hm with rfl | rfl | rfl <;> simp at hw <;> subst hw
  exacts [⟨.enable, rfl⟩, ⟨.dispmode, rfl⟩, ⟨.flush, rfl⟩]
theorem witness_IllegalWordSetsTheFlag : (hosted [.present 0#32]).seq = .idle ∧ decode 0#32 = .illegal .opcode ∧
    (hosted [.present 0#32]).stream = .present 0#32 :: [] := ⟨rfl, by decide, rfl⟩
theorem witness_TheFlagIsSticky : run 1 { State.reset with ill := true } = .next { State.reset with ill := true } := rfl
theorem witness_OnlyIllegalWordsSetTheFlag : ∃ t, step (hosted [.issue 0x90000000#32]) = .next t ∧
    (hosted [.issue 0x90000000#32]).ill = false ∧ t.ill = true := ⟨_, rfl, rfl, rfl⟩
theorem witness_CommandsIgnoreTheFlag : ({ State.reset with ill := true } : State).seq = .idle := rfl
theorem witness_FlushSendsThePixelJustWritten : State.reset.seq = .idle ∧ State.reset.HostWaits ∧
    (127 : Coord).val / 8 = 15 := ⟨rfl, .inl rfl, rfl⟩
theorem witness_ClearLosesWhatWasThere : (filled 0x55#8).seq = .idle ∧ (filled 0x55#8).HostWaits := ⟨rfl, .inl rfl⟩
theorem witness_PlotOrderDoesNotMatter : State.reset.fb.wf ∧ State.reset.seq = .idle ∧
    (∀ i ∈ [Instr.wrpix 1#8 2#8 true, .wrpix 3#8 4#8 true], ∃ x y, i = .wrpix x y true) ∧
    [Instr.wrpix 1#8 2#8 true, .wrpix 3#8 4#8 true].Perm [.wrpix 3#8 4#8 true, .wrpix 1#8 2#8 true] :=
  ⟨Memory.wf_nil, rfl, by simp, List.Perm.swap _ _ _⟩
theorem witness_RectBlackensItsEdges : State.reset.seq = .idle ∧ 127 < 256 ∧ 255 < 256 := by decide
theorem witness_RectDrawsItsPerimeter : 1 ≤ 8 ∧ 1 ≤ 2 ∧ 120 + 8 - 1 ≤ 127 ∧ 126 + 2 - 1 ≤ 127 := by decide
theorem witness_CirclePointsLieNearTheRadius : 2 ≤ 255 ∧ 255 ≤ 255 ∧ ((64 + 254, 64) : Int × Int) ∈ circleAllPoints 64 64 255 := by
  decide +kernel
theorem witness_CircleIsSymmetric : (((64 : Nat) : Int) + 9, ((64 : Nat) : Int) + 4) ∈ circleAllPoints 64 64 10 := by
  decide +kernel
theorem witness_CircleColoursItsTruncatedPoints : State.reset.seq = .idle ∧
    ((-199, 0) : Int × Int) ∈ circleAllPoints 0 0 200 ∧ (-199 : Int) % 256 = ((57 : Coord).val : Int) ∧
    (0 : Int) % 256 = ((0 : Coord).val : Int) := by decide +kernel
theorem witness_CircleColoursItsTruncatedPoints_kept : ∀ px py : Int, (px, py) ∈ circleAllPoints 64 64 1 →
    ¬ (px % 256 = ((0 : Coord).val : Int) ∧ py % 256 = ((0 : Coord).val : Int)) := by
  have h : ∀ p ∈ circleAllPoints 64 64 1, ¬ (p.1 % 256 = ((0 : Coord).val : Int) ∧ p.2 % 256 = ((0 : Coord).val : Int)) := by
    decide +kernel
  exact fun px py hp => h (px, py) hp
theorem witness_CheckerColoursEveryPixel : State.reset.seq = .idle ∧ State.reset.bitPos = Config.defaultBitPos := ⟨rfl, rfl⟩

end Sys2Proof.Tests
end

section
/-! PROOFS. The row-address transform (40_row_address_transform.md): REVERSE8 bit by bit, and the row-address byte. -/

namespace Sys2Proof.Machine

/-- REVERSE8 read bit by bit (R110). -/
theorem getLsbD_reverse8 (n : Byte) {k : Nat} (hk : k ≤ 7) : (reverse8 n).getLsbD k = n.getLsbD (7 - k) := by
  simp only [reverse8, BitVec.getLsbD_append, BitVec.getLsbD_extractLsb']
  interval_cases k <;> simp

theorem reverse8_involutive : Function.Involutive reverse8 := by
  intro n
  refine BitVec.eq_of_getLsbD_eq fun k hk => ?_
  calc (reverse8 (reverse8 n)).getLsbD k
      _ = (reverse8 n).getLsbD (7 - k) := getLsbD_reverse8 _ (by omega)
      _ = n.getLsbD (7 - (7 - k)) := getLsbD_reverse8 _ (by omega)
      _ = n.getLsbD k := by rw [show 7 - (7 - k) = k by omega]

/-- The 1-based row index is at most 128, so the byte REVERSE8 reverses loses none of its bits (R112). -/
theorem getLsbD_rowAddr (i : Coord) {k : Nat} (hk : k ≤ 7) : (rowAddr i).getLsbD k = (i.val + 1).testBit (7 - k) := by
  have hbyte : 7 - k < 8 := by omega
  rw [rowAddr, getLsbD_reverse8 _ hk, BitVec.getLsbD_ofNat]
  simp [hbyte]

theorem head?_rowRecord (m : Memory) (i : Coord) : (rowRecord m i).head? = some (rowAddr i) := rfl

/-- Settles O13: bit by bit from `getLsbD_reverse8`, and an involution is a bijection. -/
theorem reverseIsEndToEnd : Obligations.ReverseIsEndToEnd := by
  refine ⟨fun n i hi => ?_, reverse8_involutive, reverse8_involutive.bijective⟩
  rw [getLsbD_reverse8 n (Nat.sub_le 7 i), Nat.sub_sub_self hi]

/-- Settles O14: bit by bit from `getLsbD_rowAddr`; the other two parts are definitions. -/
theorem rowAddressIsTheReversedIndex : Obligations.RowAddressIsTheReversedIndex := by
  refine fun i => ⟨fun k hk => ?_, rfl, fun m => head?_rowRecord m i⟩
  rw [getLsbD_rowAddr i (Nat.sub_le 7 k), Nat.sub_sub_self hk]

end Sys2Proof.Machine
end


section
/-! PROOFS. The framebuffer commands (41_framebuffer_commands.md): the words of WRPIX and FBFILL, the bytes one pixel
write leaves, and that both commands change the framebuffer only. -/

namespace Sys2Proof.Machine

open BitVec (extractLsb'_append_eq_left extractLsb'_append_eq_right extractLsb'_append_eq_of_le getLsbD_append)

/-! The words of formats P and V decode to their command, field by field (30_encoding.md R81, R82, R84). -/

theorem decode_eq_decodeP {w : Word} (h : opcodeOf w = 1#4) : decode w = decodeP w := by rw [decode, h]; rfl

theorem decode_eq_decodeV {w : Word} (h : opcodeOf w = 2#4) : decode w = decodeV w := by rw [decode, h]; rfl

theorem opcodeOf_encode_wrpix (x y : Byte) (black : Bool) : opcodeOf (encode (.wrpix x y black)) = 1#4 := by
  rw [opcodeOf, encode, extractLsb'_append_eq_of_le (by decide), extractLsb'_append_eq_of_le (by decide),
    extractLsb'_append_eq_of_le (by decide)]
  exact extractLsb'_append_eq_left

theorem reserved_encode_wrpix (x y : Byte) (black : Bool) : (encode (.wrpix x y black)).extractLsb' 17 11 = 0#11 := by
  rw [encode, extractLsb'_append_eq_of_le (by decide), extractLsb'_append_eq_of_le (by decide),
    extractLsb'_append_eq_of_le (by decide)]
  exact extractLsb'_append_eq_right

theorem fieldX_encode_wrpix (x y : Byte) (black : Bool) : fieldX (encode (.wrpix x y black)) = x :=
  extractLsb'_append_eq_right

theorem fieldY_encode_wrpix (x y : Byte) (black : Bool) : fieldY (encode (.wrpix x y black)) = y := by
  rw [fieldY, encode, extractLsb'_append_eq_of_le (by decide)]
  exact extractLsb'_append_eq_right

theorem fieldBlack_encode_wrpix (x y : Byte) (black : Bool) : fieldBlack (encode (.wrpix x y black)) = black := by
  simp only [fieldBlack, encode, getLsbD_append]
  simp

theorem opcodeOf_encode_fbfill (v : Byte) : opcodeOf (encode (.fbfill v)) = 2#4 := by
  rw [opcodeOf, encode, extractLsb'_append_eq_of_le (by decide)]
  exact extractLsb'_append_eq_left

theorem reserved_encode_fbfill (v : Byte) : (encode (.fbfill v)).extractLsb' 8 20 = 0#20 := by
  rw [encode, extractLsb'_append_eq_of_le (by decide)]
  exact extractLsb'_append_eq_right

theorem fieldV_encode_fbfill (v : Byte) : fieldV (encode (.fbfill v)) = v := extractLsb'_append_eq_right

theorem decode_encode_wrpix (x y : Byte) (black : Bool) :
    decode (encode (.wrpix x y black)) = .instr (.wrpix x y black) := by
  rw [decode_eq_decodeP (opcodeOf_encode_wrpix x y black), decodeP, if_pos (reserved_encode_wrpix x y black),
    fieldX_encode_wrpix, fieldY_encode_wrpix, fieldBlack_encode_wrpix]

theorem decode_encode_fbfill (v : Byte) : decode (encode (.fbfill v)) = .instr (.fbfill v) := by
  rw [decode_eq_decodeV (opcodeOf_encode_fbfill v), decodeV, if_pos (reserved_encode_fbfill v), fieldV_encode_fbfill]

/-! What the two commands do to the state. -/

theorem State.writePixel_frame (s : State) (x y : Byte) (black : Bool) :
    s.writePixel x y black = { s with fb := (s.writePixel x y black).fb } := by
  unfold State.writePixel
  split <;> rfl

/-- A pixel write neither reads nor changes the lines. -/
theorem State.writePixel_lines (s : State) (x y : Byte) (black cs en : Bool) :
    { s with cs := cs, en := en }.writePixel x y black = { s.writePixel x y black with cs := cs, en := en } := by
  unfold State.writePixel
  split <;> rfl

/-- Every byte after a pixel in range is written (R120). -/
theorem State.memRead_writePixelAt (s : State) (x y : Coord) (black : Bool) (a : Addr) :
    (s.writePixelAt x y black).memRead a =
      if a = pixelAddr x y then colourByte (s.memRead a) (pixelMask s.bitPos x) black else s.memRead a := by
  rw [State.writePixelAt, State.memRead_memWrite]
  split
  · next h => rw [h]
  · rfl

/-- Every byte after WRPIX, its operands as the word carries them (R120, R121). -/
theorem State.memRead_writePixel (s : State) (x y : Byte) (black : Bool) (a : Addr) :
    (s.writePixel x y black).memRead a =
      if x.toNat < 128 ∧ y.toNat < 128 ∧ a.val = 16 * y.toNat + x.toNat / 8 then
        colourByte (s.memRead a) (1#8 <<< (bitPosAt s.bitPos (Fin.ofNat 8 x.toNat)).val) black
      else s.memRead a := by
  by_cases h : x.toNat < 128 ∧ y.toNat < 128
  · obtain ⟨hx, hy⟩ := h
    have haddr : a = pixelAddr ⟨x.toNat, hx⟩ ⟨y.toNat, hy⟩ ↔ a.val = 16 * y.toNat + x.toNat / 8 := Fin.ext_iff
    rw [State.writePixel_in s black hx hy, State.memRead_writePixelAt]
    simp only [haddr, hx, hy, true_and]
    rfl
  · rw [State.writePixel_out s black (by omega), if_neg (fun hin => h ⟨hin.1, hin.2.1⟩)]

/-- Settles O16: the word by `decode_encode_wrpix`, the bytes by `State.memRead_writePixel`. -/
theorem wrpixWritesOneBit : Obligations.WrpixWritesOneBit :=
  ⟨decode_encode_wrpix, fun s x y black hidle =>
    ⟨_, exec_idle _ hidle, s.writePixel_frame x y black, s.memRead_writePixel x y black⟩⟩

/-- Settles O17: an idle block accepts the command, and the write out of range is the identity. -/
theorem wrpixOutOfRangeIsSilent : Obligations.WrpixOutOfRangeIsSilent := by
  intro s x y black hidle hout
  rw [exec_idle _ hidle, State.accepted, State.writePixel_out s black hout]

/-- Settles O18: `pixel_writePixel`, which rests on every pixel having a place of its own. -/
theorem pixelReadsBackAndOthersKeep : Obligations.PixelReadsBackAndOthersKeep := by
  refine fun s x y black hidle => ⟨_, exec_idle _ hidle, fun i j => ?_, fun hout => ?_⟩
  · simp only [State.accepted, pixel_writePixel, eq_comm (a := i.val), eq_comm (a := j.val)]
  · rw [State.accepted, State.writePixel_out s black hout]

/-- Settles O19: the word by `decode_encode_fbfill`, the bytes by `State.memRead_fbFill`. -/
theorem fbfillWritesEveryByte : Obligations.FbfillWritesEveryByte :=
  ⟨decode_encode_fbfill, fun s v hidle => ⟨_, exec_idle _ hidle, rfl, s.memRead_fbFill v⟩⟩

/-- Settles O20: the accepted state of either command commutes with setting the lines and leaves them alone. -/
theorem framebufferCommandsIgnoreTheLines : Obligations.FramebufferCommandsIgnoreTheLines := by
  intro s i cs en hidle hi
  refine ⟨_, exec_idle i hidle, ?_⟩
  rw [exec_idle (s := { s with cs := cs, en := en }) i hidle]
  obtain ⟨x, y, black, rfl⟩ | ⟨v, rfl⟩ := hi
  · simp [State.accepted, State.writePixel_lines]
  · exact ⟨rfl, rfl, rfl, rfl, rfl⟩

end Sys2Proof.Machine
end


section
/-! PROOFS. The panel transport (43_panel_transport.md): what a bracketed send leaves in the trace, the runs of FLUSH,
CLEAR and DISPMODE, the byte stream of a frame, the two line writes, and that no send depends on EN. -/

namespace Sys2Proof.Machine

/-! Bursts and brackets performed from any state (R170, R192). -/

/-- The trace of bursts sent one after the other, the first of them draw number `n`. -/
def answered : Nat → List (List Byte) → List TraceEvent
  | _, [] => []
  | n, bytes :: bursts => .write bytes (Config.busAnswer n) :: answered (n + 1) bursts

/-- The trace of one bracketed send whose first burst is draw number `n`. -/
def bracketTrace (n : Nat) (bursts : List (List Byte)) : List TraceEvent :=
  .setCS true :: answered n bursts ++ [.setCS false]

@[simp] theorem map_sent_answered (n : Nat) (bursts : List (List Byte)) :
    (answered n bursts).map TraceEvent.sent = bursts.map .write := by
  induction bursts generalizing n with
  | nil => rfl
  | cons bytes bursts ih => rw [answered, List.map_cons, ih]; rfl

theorem map_sent_bracketTrace (n : Nat) (bursts : List (List Byte)) :
    (bracketTrace n bursts).map TraceEvent.sent = bracketed bursts := by
  simp [bracketTrace, bracketed, TraceEvent.sent]

theorem burstsOf_answered_append (n : Nat) (bursts : List (List Byte)) (rest : List TraceEvent) :
    burstsOf (answered n bursts ++ rest) = bursts ++ burstsOf rest := by
  induction bursts generalizing n with
  | nil => rfl
  | cons bytes bursts ih => rw [answered, List.cons_append, burstsOf, ih, List.cons_append]

theorem burstsOf_bracketTrace (n : Nat) (bursts : List (List Byte)) : burstsOf (bracketTrace n bursts) = bursts := by
  rw [bracketTrace, List.cons_append, burstsOf, burstsOf_answered_append]
  exact List.append_nil bursts

theorem State.performAll_writes (s : State) (bursts : List (List Byte)) :
    s.performAll (bursts.map .write) =
      { s with trace := s.trace ++ answered s.bursts bursts, bursts := s.bursts + bursts.length } := by
  induction bursts generalizing s with
  | nil => simp [answered]
  | cons bytes bursts ih =>
    rw [List.map_cons, State.performAll_cons, State.perform_write, ih]
    simp [State.busWrite, answered, Nat.add_assoc, Nat.add_comm]

/-- A bracket opened and some bursts sent. -/
theorem State.performAll_opened (s : State) (bursts : List (List Byte)) :
    s.performAll (.setCS true :: bursts.map .write) =
      { s with cs := true, trace := s.trace ++ .setCS true :: answered s.bursts bursts,
               bursts := s.bursts + bursts.length } := by
  rw [State.performAll_cons, State.perform_setCS, State.performAll_writes]
  simp [State.setCS]

/-- A whole bracket: only CS, the trace and the draw counter change. -/
theorem State.performAll_bracketed (s : State) (bursts : List (List Byte)) :
    s.performAll (bracketed bursts) =
      { s with cs := false, trace := s.trace ++ bracketTrace s.bursts bursts,
               bursts := s.bursts + bursts.length } := by
  rw [bracketed, State.performAll_append, List.singleton_append, State.performAll_opened]
  simp [State.perform_setCS, State.setCS, bracketTrace]

theorem length_bracketed (bursts : List (List Byte)) : (bracketed bursts).length = bursts.length + 2 := by
  simp [bracketed]

/-! Acceptance of a send, and its run while the host waits (R190 to R192). -/

theorem State.accepted_of_isSend {i : Instr} (h : isSend i = true) (s : State) :
    s.accepted i = s.beginSend (encode i) (events i s.fb) := by
  cases i with
  | flush | clear | dispmode | testpat => rfl
  | wrpix | fbfill | enable | disable => cases h

theorem exec_send {s : State} {i : Instr} (hidle : s.seq = .idle) (hi : isSend i = true) :
    exec i s = .next (s.beginSend (encode i) (events i s.fb)) := by
  rw [exec_idle i hidle, State.accepted_of_isSend hi]

/-- Every send is one bracket of at least one burst, none of them empty; CLEAR's fill alone comes after it (R190). -/
theorem events_of_isSend {i : Instr} (h : isSend i = true) (m : Memory) :
    ∃ bursts, bursts ≠ [] ∧ [] ∉ bursts ∧
      events i m = bracketed bursts ++ (if i = .clear then [.fbFill clearFill] else []) := by
  cases i with
  | flush => exact ⟨flushBursts m, by simp [flushBursts], by simp [flushBursts, rowRecord], by simp [events]⟩
  | clear => exact ⟨[clearSeq], by simp, by simp [clearSeq], by simp [events]⟩
  | dispmode => exact ⟨[dispSeq], by simp, by simp [dispSeq], by simp [events]⟩
  | testpat => exact ⟨[testpatSeq], by simp, by simp [testpatSeq], by simp [events]⟩
  | wrpix | fbfill | enable | disable => cases h

/-- A busy block performs the first part `es` of its pending events in as many steps. -/
theorem run_beginSend (w : Word) (es fs : List SeqEvent) {s : State} (hw : s.HostWaits) :
    run es.length (s.beginSend w (es ++ fs)) = .next { s.performAll es with seq := Seq.ofPending w fs } := by
  rw [run_performs w es fs (s := s.beginSend w (es ++ fs)) hw rfl, State.beginSend, State.performAll_seq_update]

/-- All the events of a send performed, the block idle again. -/
theorem run_beginSend_idle (w : Word) (es : List SeqEvent) {s : State} (hidle : s.seq = .idle) (hw : s.HostWaits) :
    run es.length (s.beginSend w es) = .next (s.performAll es) := by
  have h := run_beginSend w es [] hw
  rwa [List.append_nil, Seq.ofPending_nil, ← hidle, ← s.performAll_seq es] at h

/-- One bracket from acceptance to `CS <- 0`, with `rest` still pending. -/
theorem run_bracketed (w : Word) (bursts : List (List Byte)) (rest : List SeqEvent) {s : State} (hw : s.HostWaits) :
    run (bursts.length + 2) (s.beginSend w (bracketed bursts ++ rest)) =
      .next { s with cs := false, trace := s.trace ++ bracketTrace s.bursts bursts,
                     bursts := s.bursts + bursts.length, seq := Seq.ofPending w rest } := by
  rw [← length_bracketed, run_beginSend w _ rest hw, State.performAll_bracketed]

/-- A send that is one bracket and nothing more, run to its end. -/
theorem run_bracketed_idle (w : Word) (bursts : List (List Byte)) {s : State} (hidle : s.seq = .idle)
    (hw : s.HostWaits) :
    run (bursts.length + 2) (s.beginSend w (bracketed bursts)) =
      .next { s with cs := false, trace := s.trace ++ bracketTrace s.bursts bursts,
                     bursts := s.bursts + bursts.length } := by
  rw [← length_bracketed, run_beginSend_idle w _ hidle hw, State.performAll_bracketed]

/-! The bytes of one FLUSH (R174, R175). -/

theorem length_flushBursts (m : Memory) : (flushBursts m).length = 130 := by simp [flushBursts]

theorem length_rowRecord (m : Memory) (i : Coord) : (rowRecord m i).length = 17 := by simp [rowRecord, rowBytes]

/-- FLUSH accepted by an idle block and run for its 132 events (R174). -/
theorem run_flush {s : State} (hidle : s.seq = .idle) (hw : s.HostWaits) :
    run 132 (s.beginSend (encode .flush) (events .flush s.fb)) =
      .next { s with cs := false, trace := s.trace ++ bracketTrace s.bursts (flushBursts s.fb),
                     bursts := s.bursts + 130 } := by
  have h := run_bracketed_idle (encode .flush) (flushBursts s.fb) hidle hw
  rwa [length_flushBursts] at h

/-- An element of lists of one length laid end to end: element `j` of list `i`. -/
theorem getElem?_flatten_of_length_eq {α : Type} {k : Nat} {ls : List (List α)} (hk : ∀ l ∈ ls, l.length = k) (i : Nat)
    {j : Nat} (hj : j < k) : ls.flatten[i * k + j]? = ls[i]?.bind (·[j]?) := by
  induction ls generalizing i with
  | nil => rfl
  | cons l ls ih =>
    have hl : l.length = k := hk l List.mem_cons_self
    cases i with
    | zero => simp [List.getElem?_append_left (hl ▸ hj)]
    | succ i =>
      rw [List.flatten_cons, List.getElem?_append_right (by rw [hl, Nat.succ_mul]; omega), hl,
        show (i + 1) * k + j - k = i * k + j by rw [Nat.succ_mul]; omega,
        ih (fun l' h => hk l' (List.mem_cons_of_mem l h)), List.getElem?_cons_succ]

/-- The rows of a frame laid end to end. -/
theorem length_rows_flatten (m : Memory) : ((List.finRange 128).map (rowRecord m)).flatten.length = 2176 := by
  simp [Function.comp_def, length_rowRecord]

theorem flatten_flushBursts (m : Memory) :
    (flushBursts m).flatten = startByte :: ((List.finRange 128).map (rowRecord m)).flatten ++ [trailerByte] := by
  simp [flushBursts]

/-- Byte `j` of row `i`'s record stands at offset `1 + 17·i + j` of the frame. -/
theorem getElem?_flatten_flushBursts (m : Memory) (i : Coord) {j : Nat} (hj : j < 17) :
    (flushBursts m).flatten[i.val * 17 + j + 1]? = (rowRecord m i)[j]? := by
  have hin : i.val * 17 + j < ((List.finRange 128).map (rowRecord m)).flatten.length := by
    rw [length_rows_flatten]; omega
  have hlen : ∀ l ∈ (List.finRange 128).map (rowRecord m), l.length = 17 := by simp [length_rowRecord]
  rw [flatten_flushBursts, List.cons_append, List.getElem?_cons_succ, List.getElem?_append_left hin,
    getElem?_flatten_of_length_eq hlen _ hj]
  simp

theorem getElem?_rowRecord_succ (m : Memory) (i : Coord) (c : ByteCol) :
    (rowRecord m i)[c.val + 1]? = some (m.read (byteAddr i c)) := by
  simp [rowRecord, rowBytes]

/-- Settles O22: `run_flush`, and what its trace sent is the bracket of FLUSH's bursts. -/
theorem flushSendsTheFrame : Obligations.FlushSendsTheFrame := by
  refine ⟨by decide, fun s hidle hw => ⟨_, _, bracketTrace s.bursts (flushBursts s.fb), exec_send hidle rfl,
    run_flush hidle hw, rfl, ?_⟩⟩
  rw [map_sent_bracketTrace]
  simp only [bracketed, flushBursts, List.map_append, List.map_map, List.append_assoc]
  rfl

/-- Settles O23: the bursts of `run_flush`'s trace are FLUSH's, and `getElem?_flatten_flushBursts` places every byte of a
row record. -/
theorem flushByteStream : Obligations.FlushByteStream := by
  refine fun s hidle hw => ⟨_, _, bracketTrace s.bursts (flushBursts s.fb), exec_send hidle rfl,
    run_flush hidle hw, rfl, ?_⟩
  rw [burstsOf_bracketTrace]
  refine ⟨length_flushBursts _, ?_, ?_, ?_, fun i => ?_, fun i c => ?_⟩
  · rw [flatten_flushBursts, List.length_append, List.length_cons, length_rows_flatten]; rfl
  · rw [flatten_flushBursts]; rfl
  · rw [flatten_flushBursts, List.getElem?_append_right (by rw [List.length_cons, length_rows_flatten]),
      List.length_cons, length_rows_flatten]
    rfl
  · rw [Nat.add_comm]
    exact getElem?_flatten_flushBursts s.fb i (j := 0) (by decide)
  · have hc : c.val + 1 < 17 := by omega
    rw [show 2 + i.val * 17 + c.val = i.val * 17 + (c.val + 1) + 1 by omega, getElem?_flatten_flushBursts s.fb i hc]
    exact getElem?_rowRecord_succ s.fb i c

theorem State.fbFill_frame (s : State) (v : Byte) : s.fbFill v = { s with fb := (s.fbFill v).fb } := rfl

/-- CLEAR accepted by an idle block and run for its 4 events: its bracket, then the fill (R176). -/
theorem run_clear {s : State} (hidle : s.seq = .idle) (hw : s.HostWaits) :
    run 4 (s.beginSend (encode .clear) (events .clear s.fb)) =
      .next ({ s with cs := false, trace := s.trace ++ bracketTrace s.bursts [clearSeq],
                      bursts := s.bursts + 1 }.fbFill clearFill) := by
  have h := run_beginSend_idle (encode .clear) (events .clear s.fb) hidle hw
  rwa [events, State.performAll_append, State.performAll_bracketed] at h

/-- Settles O24: `run_clear`, whose end is a fill of the state the bracket left. -/
theorem clearSendsThenFills : Obligations.ClearSendsThenFills :=
  ⟨by decide, fun _ hidle hw => ⟨_, _, _, exec_send hidle rfl, run_clear hidle hw, State.fbFill_frame _ _,
    State.memRead_fbFill _ _⟩⟩

/-- Settles O26: `run_bracketed_idle` with the one burst of DISPMODE. -/
theorem dispmodeSends : Obligations.DispmodeSends :=
  ⟨by decide, fun s hidle hw => ⟨_, _, Config.busAnswer s.bursts, exec_send hidle rfl,
    run_bracketed_idle (encode .dispmode) [dispSeq] hidle hw, rfl⟩⟩

/-- A bracket under way: after `CS <- 1` and the first `k` bursts, with the rest of the bracket pending (R170). -/
theorem run_bracketed_partway (w : Word) (bursts : List (List Byte)) (rest : List SeqEvent) {k : Nat}
    (hk : k ≤ bursts.length) {s : State} (hw : s.HostWaits) :
    run (k + 1) (s.beginSend w (bracketed bursts ++ rest)) =
      .next { s with cs := true, trace := s.trace ++ .setCS true :: answered s.bursts (bursts.take k),
                     bursts := s.bursts + k,
                     seq := Seq.ofPending w ((bursts.drop k).map .write ++ .setCS false :: rest) } := by
  have hsplit : bracketed bursts ++ rest =
      (.setCS true :: (bursts.take k).map .write) ++ ((bursts.drop k).map .write ++ .setCS false :: rest) := by
    have hcut : bursts.map SeqEvent.write = (bursts.take k).map .write ++ (bursts.drop k).map .write := by
      rw [← List.map_append, List.take_append_drop]
    simp only [bracketed, hcut, List.cons_append, List.nil_append, List.append_assoc]
  have hlen : (.setCS true :: (bursts.take k).map SeqEvent.write).length = k + 1 := by simp [hk]
  rw [hsplit, ← hlen, run_beginSend w _ _ hw, State.performAll_opened, List.length_take_of_le hk]

theorem isBusy_of_seq_ofPending_append_cons {s : State} {w : Word} {es fs : List SeqEvent} {e : SeqEvent}
    (h : s.seq = Seq.ofPending w (es ++ e :: fs)) : s.isBusy = true := by
  cases es <;> simp [State.isBusy, h]

/-- Settles O30: `events_of_isSend` gives the bracket, `run_bracketed_partway` every point inside it and `run_bracketed`
its end. -/
theorem everySendIsBracketed : Obligations.EverySendIsBracketed := by
  intro s i hidle hw hi
  obtain ⟨bursts, hne, hnil, hev⟩ := events_of_isSend hi s.fb
  refine ⟨_, bursts, exec_send hidle hi, hne, hnil, hev, fun k hk => ?_, ?_⟩
  · rw [hev]
    exact ⟨_, _, run_bracketed_partway _ bursts _ hk hw, rfl, isBusy_of_seq_ofPending_append_cons rfl, rfl, rfl, rfl,
      map_sent_answered _ _⟩
  · rw [hev]
    exact ⟨_, _, run_bracketed _ bursts _ hw, rfl, rfl, rfl, by simp [bracketTrace], map_sent_answered s.bursts bursts⟩

/-! Sends do not read EN (R187). -/

theorem State.pending_of_seq_ofPending {s : State} {w : Word} {es : List SeqEvent} (h : s.seq = Seq.ofPending w es) :
    s.pending = es := by
  cases es <;> simp [State.pending, h]

theorem State.pending_sequence (s : State) : s.sequence.pending = s.pending.tail := by
  cases h : s.seq with
  | idle => simp [State.sequence_idle h, State.pending, h]
  | busy w e rest =>
    rw [State.sequence_busy h, State.pending_of_seq_ofPending (es := rest) rfl, State.pending, h, List.tail_cons]

theorem Seq.idle_or_busy (q : Seq) : q = .idle ∨ ∃ w e rest, q = .busy w e rest := by
  cases q with
  | idle => exact .inl rfl
  | busy w e rest => exact .inr ⟨w, e, rest, rfl⟩

theorem State.perform_en_update (s : State) (en : Bool) {e : SeqEvent} (he : ∀ v, e ≠ .setEN v) :
    { s with en := en }.perform e = { s.perform e with en := en } := by
  cases e with
  | setEN v => exact absurd rfl (he v)
  | setCS | write | fbFill => rfl

/-- A sequencer with no write of EN pending moves the same whatever EN is. -/
theorem State.sequence_en_update (s : State) (en : Bool) (h : ∀ v, .setEN v ∉ s.pending) :
    { s with en := en }.sequence = { s.sequence with en := en } := by
  obtain hs | ⟨w, e, rest, hs⟩ := s.seq.idle_or_busy
  · rw [State.sequence_idle hs, State.sequence_idle (s := { s with en := en }) hs]
  · have he : ∀ v, e ≠ .setEN v := fun v hv => h v (by simp [State.pending, hs, hv])
    rw [State.sequence_busy hs, State.sequence_busy (s := { s with en := en }) hs, State.perform_en_update s en he]

theorem step_of_stream_nil {s : State} (h : s.stream = []) : step s = .next s.sequence := by simp [step, advance, h]

/-- With no move of the host to come and no write of EN pending, runs carry EN along unread. -/
theorem run_en_update (en : Bool) {n : Nat} {s u : State} (hst : s.stream = []) (hp : ∀ v, .setEN v ∉ s.pending)
    (h : run n s = .next u) : run n { s with en := en } = .next { u with en := en } := by
  induction n generalizing s with
  | zero =>
    injection h with h
    rw [run_zero, h]
  | succ n ih =>
    rw [run_succ_next (step_of_stream_nil hst)] at h
    rw [run_succ_next (step_of_stream_nil (s := { s with en := en }) hst), State.sequence_en_update s en hp]
    refine ih (by rw [State.sequence_stream, hst]) (fun v hv => ?_) h
    exact hp v (List.mem_of_mem_tail (s.pending_sequence ▸ hv))

theorem setEN_not_mem_events_of_isSend {i : Instr} (h : isSend i = true) (m : Memory) (v : Bool) :
    .setEN v ∉ events i m := by
  obtain ⟨bursts, -, -, hev⟩ := events_of_isSend h m
  rw [hev]
  split <;> simp [bracketed]

/-- Settles O31: the accepted state has no write of EN pending, so `run_en_update` applies to it. -/
theorem sendsIgnoreEnable : Obligations.SendsIgnoreEnable := by
  intro s t u i en n hst hi hexec hrun
  obtain ⟨hidle, ht⟩ := exec_next hexec
  rw [State.accepted_of_isSend hi] at ht
  subst ht
  have hp : ∀ v, .setEN v ∉ (s.beginSend (encode i) (events i s.fb)).pending := fun v => by
    rw [State.pending_of_seq_ofPending (State.beginSend_seq s _ _)]
    exact setEN_not_mem_events_of_isSend hi s.fb v
  exact ⟨_, exec_send (s := { s with en := en }) hidle hi,
    run_en_update (s := s.beginSend (encode i) (events i s.fb)) en hst hp hrun⟩

/-! The two line writes (R185, R186). -/

/-- Settles O28: an idle block accepts ENABLE, whose accepted state is the line write. -/
theorem enableDrivesTheLineHigh : Obligations.EnableDrivesTheLineHigh :=
  ⟨by decide, fun _ hidle => exec_idle .enable hidle, _, exec_idle .enable rfl, by decide⟩

/-- Settles O29: an idle block accepts DISABLE, whose accepted state is the line write. -/
theorem disableDrivesTheLineLow : Obligations.DisableDrivesTheLineLow :=
  ⟨by decide, fun _ hidle => exec_idle .disable hidle, _, _, exec_idle .enable rfl, exec_idle .disable rfl, by decide⟩

end Sys2Proof.Machine
end


section
/-! PROOFS. The encoding (30_encoding.md): decoding and encoding are inverse, the opcode map by mask and match, the
operand fields and the illegal words as numbers, and the words the assembler emits. -/

namespace Sys2Proof.Machine

/-- Settles O1: formats P and V by the earlier lemmas, each word of format N by evaluation. -/
theorem decodeOfEncodeGivesTheCommand : Obligations.DecodeOfEncodeGivesTheCommand := by
  intro i
  cases i with
  | wrpix x y black => exact decode_encode_wrpix x y black
  | fbfill v => exact decode_encode_fbfill v
  | flush | clear | dispmode | testpat | enable | disable => rfl

/-! Words and their fields as numbers (R80 to R84). -/

theorem opcodeOf_toNat (w : Word) : (opcodeOf w).toNat = w.toNat / 2 ^ 28 := by
  have hw := w.isLt
  rw [opcodeOf, BitVec.extractLsb'_toNat, Nat.shiftRight_eq_div_pow]
  omega

theorem fieldX_toNat (w : Word) : (fieldX w).toNat = w.toNat % 256 := by
  rw [fieldX, BitVec.extractLsb'_toNat, Nat.shiftRight_zero]

theorem fieldY_toNat (w : Word) : (fieldY w).toNat = w.toNat / 256 % 256 := by
  rw [fieldY, BitVec.extractLsb'_toNat, Nat.shiftRight_eq_div_pow]

theorem fieldV_toNat (w : Word) : (fieldV w).toNat = w.toNat % 256 := fieldX_toNat w

theorem fieldBlack_toNat (w : Word) : (fieldBlack w).toNat = w.toNat / 65536 % 2 := by
  rw [fieldBlack, ← BitVec.testBit_toNat, Nat.toNat_testBit]

theorem toNat_append_eq_add {n m : Nat} (u : BitVec n) (v : BitVec m) : (u ++ v).toNat = u.toNat * 2 ^ m + v.toNat := by
  rw [BitVec.toNat_append, ← Nat.shiftLeft_add_eq_or_of_lt v.isLt, Nat.shiftLeft_eq]

theorem encode_wrpix_toNat (x y : Byte) (black : Bool) :
    (encode (.wrpix x y black)).toNat = 2 ^ 28 + 65536 * black.toNat + 256 * y.toNat + x.toNat := by
  rw [encode, toNat_append_eq_add, toNat_append_eq_add, toNat_append_eq_add, BitVec.toNat_ofBool]
  simp
  omega

theorem encode_fbfill_toNat (v : Byte) : (encode (.fbfill v)).toNat = 2 * 2 ^ 28 + v.toNat := by
  rw [encode, toNat_append_eq_add]
  simp

theorem encodeN_toNat (op : BitVec 4) : (encodeN op).toNat = op.toNat * 2 ^ 28 := by
  rw [encodeN, toNat_append_eq_add]
  simp

/-! Each format's decoder, its reserved field as a number (R81 to R83). -/

theorem extractLsb'_eq_zero_iff (w : Word) (start len : Nat) :
    w.extractLsb' start len = 0#len ↔ w.toNat / 2 ^ start % 2 ^ len = 0 := by
  rw [← BitVec.toNat_inj, BitVec.extractLsb'_toNat, Nat.shiftRight_eq_div_pow, BitVec.toNat_ofNat, Nat.zero_mod]

theorem decodeP_eq (w : Word) :
    decodeP w = if w.toNat / 2 ^ 17 % 2 ^ 11 = 0 then .instr (.wrpix (fieldX w) (fieldY w) (fieldBlack w))
      else .illegal .reservedBits := by
  simp only [decodeP, extractLsb'_eq_zero_iff]

theorem decodeV_eq (w : Word) :
    decodeV w = if w.toNat / 2 ^ 8 % 2 ^ 20 = 0 then .instr (.fbfill (fieldV w)) else .illegal .reservedBits := by
  simp only [decodeV, extractLsb'_eq_zero_iff]

theorem decodeN_eq (w : Word) (i : Instr) :
    decodeN w i = if w.toNat % 2 ^ 28 = 0 then .instr i else .illegal .reservedBits := by
  simp only [decodeN, extractLsb'_eq_zero_iff, pow_zero, Nat.div_one]

/-- The shape all three formats share answers a command only with its reserved field 0. -/
theorem ite_instr_eq_instr {c : Prop} [Decidable c] {i j : Instr} {why : IllegalWord}
    (h : (if c then Decoded.instr i else .illegal why) = .instr j) : c ∧ i = j := by
  split at h
  · next hc => exact ⟨hc, by injection h⟩
  · cases h

/-- The shape all three formats share is illegal exactly with its reserved field not 0. -/
theorem exists_ite_instr_eq_illegal_iff {c : Prop} [Decidable c] {i : Instr} {why : IllegalWord} :
    (∃ why', (if c then Decoded.instr i else .illegal why) = .illegal why') ↔ ¬ c := by
  split <;> simp_all

theorem encode_of_decodeP {w : Word} {i : Instr} (hop : w.toNat / 2 ^ 28 = 1) (h : decodeP w = .instr i) :
    encode i = w := by
  rw [decodeP_eq] at h
  obtain ⟨hres, rfl⟩ := ite_instr_eq_instr h
  refine BitVec.eq_of_toNat_eq ?_
  rw [encode_wrpix_toNat, fieldX_toNat, fieldY_toNat, fieldBlack_toNat]
  omega

theorem encode_of_decodeV {w : Word} {i : Instr} (hop : w.toNat / 2 ^ 28 = 2) (h : decodeV w = .instr i) :
    encode i = w := by
  rw [decodeV_eq] at h
  obtain ⟨hres, rfl⟩ := ite_instr_eq_instr h
  refine BitVec.eq_of_toNat_eq ?_
  rw [encode_fbfill_toNat, fieldV_toNat]
  omega

theorem encode_of_decodeN {w : Word} {i j : Instr} (hj : encode j = encodeN (opcodeOf w)) (h : decodeN w j = .instr i) :
    encode i = w := by
  rw [decodeN_eq] at h
  obtain ⟨hres, rfl⟩ := ite_instr_eq_instr h
  refine BitVec.eq_of_toNat_eq ?_
  rw [hj, encodeN_toNat, opcodeOf_toNat]
  omega

/-- The decoder by the opcode of the word: format P, format V, one of the six words of format N, or illegal (R85,
R87). -/
theorem decode_by_opcode (w : Word) :
    (w.toNat / 2 ^ 28 = 1 ∧ decode w = decodeP w) ∨ (w.toNat / 2 ^ 28 = 2 ∧ decode w = decodeV w) ∨
    (∃ i, 3 ≤ w.toNat / 2 ^ 28 ∧ w.toNat / 2 ^ 28 ≤ 8 ∧ encode i = encodeN (opcodeOf w) ∧ decode w = decodeN w i) ∨
    ((w.toNat / 2 ^ 28 = 0 ∨ 9 ≤ w.toNat / 2 ^ 28) ∧ decode w = .illegal .opcode) := by
  have hN {op : BitVec 4} (i : Instr) (hop : (opcodeOf w).toNat = op.toNat) (hi : encode i = encodeN op) :
      encode i = encodeN (opcodeOf w) := by rw [BitVec.eq_of_toNat_eq hop, hi]
  rw [← opcodeOf_toNat]
  unfold decode
  split
  case h_1 h => exact .inl ⟨h, rfl⟩
  case h_2 h => exact .inr (.inl ⟨h, rfl⟩)
  case h_3 h => exact .inr (.inr (.inl ⟨.flush, by omega, by omega, hN (op := 3#4) .flush h rfl, rfl⟩))
  case h_4 h => exact .inr (.inr (.inl ⟨.clear, by omega, by omega, hN (op := 4#4) .clear h rfl, rfl⟩))
  case h_5 h => exact .inr (.inr (.inl ⟨.dispmode, by omega, by omega, hN (op := 5#4) .dispmode h rfl, rfl⟩))
  case h_6 h => exact .inr (.inr (.inl ⟨.testpat, by omega, by omega, hN (op := 6#4) .testpat h rfl, rfl⟩))
  case h_7 h => exact .inr (.inr (.inl ⟨.enable, by omega, by omega, hN (op := 7#4) .enable h rfl, rfl⟩))
  case h_8 h => exact .inr (.inr (.inl ⟨.disable, by omega, by omega, hN (op := 8#4) .disable h rfl, rfl⟩))
  case h_9 =>
    refine .inr (.inr (.inr ⟨?_, rfl⟩))
    simp only [imp_false] at *
    omega

/-- Settles O2: format by format, the word as a number is its opcode and fields put together. -/
theorem encodeOfDecodeGivesTheWord : Obligations.EncodeOfDecodeGivesTheWord := by
  intro w i h
  obtain ⟨hop, hd⟩ | ⟨hop, hd⟩ | ⟨j, -, -, hj, hd⟩ | ⟨-, hd⟩ := decode_by_opcode w <;> rw [hd] at h
  · exact encode_of_decodeP hop h
  · exact encode_of_decodeV hop h
  · exact encode_of_decodeN hj h
  · cases h

/-- Decoding and encoding are inverse. -/
theorem decode_eq_instr_iff (w : Word) (i : Instr) : decode w = .instr i ↔ w = encode i :=
  ⟨fun h => (encodeOfDecodeGivesTheWord w i h).symm, fun h => h ▸ decodeOfEncodeGivesTheCommand i⟩

/-! The opcode map (R85). -/

/-- A mask of the bits from `k` up keeps all of a word's bits from `k` up. -/
theorem div_of_and_allOnes_shiftLeft {w m : Word} (k : Nat) (h : w &&& (BitVec.allOnes 32 <<< k) = m) :
    w.toNat / 2 ^ k = m.toNat / 2 ^ k := by
  have hbits : (w &&& (BitVec.allOnes 32 <<< k)) >>> k = w >>> k := by
    refine BitVec.eq_of_getLsbD_eq fun i hi => ?_
    simp only [BitVec.getLsbD_ushiftRight, BitVec.getLsbD_and, BitVec.getLsbD_shiftLeft, BitVec.getLsbD_allOnes]
    by_cases hin : k + i < 32
    · simp [hin, hi]
    · rw [BitVec.getLsbD_of_ge w _ (by omega), Bool.false_and]
  rw [← Nat.shiftRight_eq_div_pow, ← Nat.shiftRight_eq_div_pow, ← BitVec.toNat_ushiftRight, ← BitVec.toNat_ushiftRight,
    ← h, hbits]

/-- Settles O3: a word of a row has the row's bits by `RowMatch`; conversely the masked bits fix opcode and reserved
field. -/
theorem opcodeMapSelectsEachCommand : Obligations.OpcodeMapSelectsEachCommand := by
  intro w
  have hfull : w &&& 0xFFFFFFFF#32 = w := BitVec.and_allOnes
  simp only [decode_eq_instr_iff, hfull]
  refine ⟨⟨?_, fun h => ?_⟩, ⟨?_, fun h => ?_⟩, Iff.rfl, Iff.rfl, Iff.rfl, Iff.rfl, Iff.rfl, Iff.rfl⟩
  · rintro ⟨x, y, black, rfl⟩
    exact Laws.RowMatch.wrpix x y black
  · have hdiv := div_of_and_allOnes_shiftLeft 17 h
    refine ⟨fieldX w, fieldY w, fieldBlack w, BitVec.eq_of_toNat_eq ?_⟩
    rw [encode_wrpix_toNat, fieldX_toNat, fieldY_toNat, fieldBlack_toNat]
    simp at hdiv
    omega
  · rintro ⟨v, rfl⟩
    exact Laws.RowMatch.fbfill v
  · have hdiv := div_of_and_allOnes_shiftLeft 8 h
    refine ⟨fieldV w, BitVec.eq_of_toNat_eq ?_⟩
    rw [encode_fbfill_toNat, fieldV_toNat]
    simp at hdiv
    omega

/-- Settles O4: the word is the encoding of its command, read as a number. -/
theorem operandsComeFromTheirFields : Obligations.OperandsComeFromTheirFields := by
  refine fun w => ⟨fun x y black h => ?_, fun v h => ?_⟩ <;> rw [← encodeOfDecodeGivesTheWord w _ h]
  · have hx := x.isLt
    have hy := y.isLt
    have hb := black.toNat_lt
    rw [encode_wrpix_toNat, ← Bool.toNat_eq_one]
    omega
  · have hv := v.isLt
    rw [encode_fbfill_toNat]
    omega

/-- Settles O5: opcode by opcode, a word is illegal when its format's reserved field is not 0. -/
theorem illegalWordsAreThoseListed : Obligations.IllegalWordsAreThoseListed := by
  intro w
  obtain ⟨hop, hd⟩ | ⟨hop, hd⟩ | ⟨j, h3, h8, -, hd⟩ | ⟨hop, hd⟩ := decode_by_opcode w <;> rw [hd]
  · rw [decodeP_eq, exists_ite_instr_eq_illegal_iff, hop]
    simp
  · rw [decodeV_eq, exists_ite_instr_eq_illegal_iff, hop]
    simp
  · rw [decodeN_eq, exists_ite_instr_eq_illegal_iff]
    omega
  · exact ⟨fun _ => hop.imp id .inl, fun _ => ⟨_, rfl⟩⟩

/-- Settles O6: each word by evaluation. -/
theorem workedWordsDecode : Obligations.WorkedWordsDecode :=
  ⟨rfl, rfl, rfl, rfl, rfl, rfl, ⟨.reservedBits, rfl⟩, ⟨.opcode, rfl⟩⟩

/-! The assembler (R89). -/

theorem encode_wrpix_toNat_or (x y : Byte) (black : Bool) :
    (encode (.wrpix x y black)).toNat = 0x1 <<< 28 ||| black.toNat <<< 16 ||| y.toNat <<< 8 ||| x.toNat := by
  rw [encode, BitVec.toNat_append, BitVec.toNat_append, BitVec.toNat_append, BitVec.toNat_append]
  simp [Nat.shiftLeft_or_distrib, ← Nat.shiftLeft_add]

theorem encode_fbfill_toNat_or (v : Byte) : (encode (.fbfill v)).toNat = 0x2 <<< 28 ||| v.toNat := by
  rw [encode, BitVec.toNat_append, BitVec.toNat_append]
  rfl

theorem encode_plot {x y b : Nat} (hx : x < 256) (hy : y < 256) (hb : b < 2) :
    encode (plot x y (b == 1)) = BitVec.ofNat 32 (0x1 <<< 28 ||| b <<< 16 ||| y <<< 8 ||| x) := by
  have hcolour : (b == 1).toNat = b := by interval_cases b <;> rfl
  have hor := encode_wrpix_toNat_or (BitVec.ofNat 8 x) (BitVec.ofNat 8 y) (b == 1)
  rw [hcolour, BitVec.toNat_ofNat, BitVec.toNat_ofNat, Nat.mod_eq_of_lt hx, Nat.mod_eq_of_lt hy] at hor
  rw [← hor, plot, BitVec.ofNat_toNat, BitVec.setWidth_eq]

theorem encode_fbfill_ofNat {v : Nat} (hv : v < 256) :
    encode (.fbfill (BitVec.ofNat 8 v)) = BitVec.ofNat 32 (0x2 <<< 28 ||| v) := by
  have hor := encode_fbfill_toNat_or (BitVec.ofNat 8 v)
  rw [BitVec.toNat_ofNat, Nat.mod_eq_of_lt hv] at hor
  rw [← hor, BitVec.ofNat_toNat, BitVec.setWidth_eq]

/-- Settles O7: a line that fits is its command's word (`encode_plot`, `encode_fbfill_ofNat`), any other is refused. -/
theorem assemblerEmitsTheTable : Obligations.AssemblerEmitsTheTable := by
  refine ⟨fun x y b => ?_, fun v => ?_, fun w => ?_, rfl, rfl, rfl, rfl, rfl, rfl⟩
  · have hwf : (AsmLine.wrpix x y b).wellFormed = true ↔ x < 256 ∧ y < 256 ∧ b < 2 := by
      simp [AsmLine.wellFormed, fitsByte, fitsColour, and_assoc]
    simp only [assemble, hwf]
    split
    · next h => rw [encode_plot h.1 h.2.1 h.2.2]
    · rfl
  · have hwf : (AsmLine.fbfill v).wellFormed = true ↔ v < 256 := by simp [AsmLine.wellFormed, fitsByte]
    simp only [assemble, hwf]
    split
    · next h => rw [encode_fbfill_ofNat h]
    · rfl
  · have hwf : (AsmLine.word w).wellFormed = true ↔ w < 2 ^ 32 := by simp [AsmLine.wellFormed, fitsWord]
    simp only [assemble, hwf]

end Sys2Proof.Machine
end


section
/-! PROOFS. What one step does, said once: the accepted state field by field, the two kinds of step that go on and the
one that stops, and what holds along every run for that reason (BITPOS, ILL and the record; 20_memory.md R58,
60_exceptions.md). -/

namespace Sys2Proof.Machine

/-! The accepted state: its fields, and the updates it carries along. -/

@[simp] theorem State.accepted_cs (s : State) (i : Instr) : (s.accepted i).cs = s.cs := by
  cases i <;> simp [State.accepted]
@[simp] theorem State.accepted_ill (s : State) (i : Instr) : (s.accepted i).ill = s.ill := by
  cases i <;> simp [State.accepted]
@[simp] theorem State.accepted_faults (s : State) (i : Instr) : (s.accepted i).faults = s.faults := by
  cases i <;> simp [State.accepted]
@[simp] theorem State.accepted_stream (s : State) (i : Instr) : (s.accepted i).stream = s.stream := by
  cases i <;> simp [State.accepted]
@[simp] theorem State.accepted_bitPos (s : State) (i : Instr) : (s.accepted i).bitPos = s.bitPos := by
  cases i <;> simp [State.accepted]

theorem State.accepted_stream_update (s : State) (m : List HostMove) (i : Instr) :
    { s with stream := m }.accepted i = { s.accepted i with stream := m } := by
  cases i with
  | wrpix x y black =>
    simp only [State.accepted, State.writePixel]
    split <;> rfl
  | fbfill | flush | clear | dispmode | testpat | enable | disable => rfl

theorem State.accepted_record_update (s : State) (ill : Bool) (faults : List Fault) (i : Instr) :
    { s with ill := ill, faults := faults }.accepted i = { s.accepted i with ill := ill, faults := faults } := by
  cases i with
  | wrpix x y black =>
    simp only [State.accepted, State.writePixel]
    split <;> rfl
  | fbfill | flush | clear | dispmode | testpat | enable | disable => rfl

theorem State.sequence_stream_update (s : State) (m : List HostMove) :
    { s with stream := m }.sequence = { s.sequence with stream := m } := by
  obtain hs | ⟨w, e, rest, hs⟩ := s.seq.idle_or_busy
  · rw [State.sequence_idle hs, State.sequence_idle (s := { s with stream := m }) hs]
  · rw [State.sequence_busy hs, State.sequence_busy (s := { s with stream := m }) hs, State.perform_stream_update]

/-! The port and the step, forwards (R191, 60_exceptions.md R225, R226). -/

/-- The host's next move puts `w` on the port of an idle block: `rest` are the moves after it. -/
def State.Offers (s : State) (w : Word) (rest : List HostMove) : Prop :=
  s.stream = .present w :: rest ∨ s.stream = .issue w :: rest

theorem presentWord_illegal {s : State} {w : Word} {why : IllegalWord} (hidle : s.seq = .idle)
    (h : decode w = .illegal why) : presentWord w s = .next (s.raiseIllegal w) := by
  simp [presentWord, hidle, h]

theorem presentWord_instr {s : State} {w : Word} {i : Instr} (hidle : s.seq = .idle) (h : decode w = .instr i) :
    presentWord w s = exec i s := by
  simp [presentWord, hidle, h]

theorem presentWord_busy {s : State} (w : Word) (hbusy : s.seq ≠ .idle) : presentWord w s = .fault (.overlap w) := by
  obtain hs | ⟨v, e, es, hs⟩ := s.seq.idle_or_busy
  · exact absurd hs hbusy
  · simp [presentWord, hs]

theorem step_of_offers {s : State} {w : Word} {rest : List HostMove} (hidle : s.seq = .idle) (h : s.Offers w rest) :
    step s = presentWord w { s with stream := rest } := by
  rcases h with h | h <;> simp [step, advance, h, hidle, State.moved]

theorem step_of_present {s : State} {w : Word} {rest : List HostMove} (h : s.stream = .present w :: rest) :
    step s = presentWord w { s with stream := rest } := by
  simp [step, advance, h, State.moved]

theorem step_of_pause {s : State} {rest : List HostMove} (h : s.stream = .pause :: rest) :
    step s = .next { s with stream := rest }.sequence := by
  simp [step, advance, h, State.moved]

theorem step_of_issue_busy {s : State} {w : Word} {rest : List HostMove} (hbusy : s.seq ≠ .idle)
    (h : s.stream = .issue w :: rest) : step s = .next s.sequence := by
  obtain hs | ⟨v, e, es, hs⟩ := s.seq.idle_or_busy
  · exact absurd hs hbusy
  · simp [step, advance, h, hs]

/-! The step, backwards. -/

/-- A step that goes on has recorded an illegal word, or accepted the command the word spells, or it was the
sequencer's. -/
theorem step_cases {s t : State} (h : step s = .next t) :
    (∃ w rest, s.Offers w rest ∧ s.seq = .idle ∧
      ((∃ why, decode w = .illegal why ∧ t = { s.raiseIllegal w with stream := rest }) ∨
        ∃ i, decode w = .instr i ∧ t = { s.accepted i with stream := rest })) ∨
    ∃ moves, t = { s.sequence with stream := moves } := by
  rcases step_next h with ⟨w, rest, hoffer, hidle, hp⟩ | rfl | ⟨rest, -, rfl⟩
  · refine .inl ⟨w, rest, hoffer, hidle, ?_⟩
    obtain ⟨-, ⟨why, hd, rfl⟩ | ⟨i, hd, rfl⟩⟩ := presentWord_next hp
    · exact .inl ⟨why, hd, rfl⟩
    · exact .inr ⟨i, hd, s.accepted_stream_update rest i⟩
  · exact .inr ⟨s.sequence.stream, rfl⟩
  · exact .inr ⟨rest, s.sequence_stream_update rest⟩

/-- An idle block goes on whatever word it is offered. -/
theorem exists_step_of_offers {s : State} {w : Word} {rest : List HostMove} (hidle : s.seq = .idle)
    (h : s.Offers w rest) : ∃ t, step s = .next t := by
  rw [step_of_offers hidle h]
  cases hd : decode w with
  | illegal why => exact ⟨_, presentWord_illegal hidle hd⟩
  | instr i => exact ⟨_, (presentWord_instr (s := { s with stream := rest }) hidle hd).trans (exec_idle i hidle)⟩

/-- Every step goes on, but the one that presents a word to a busy block. -/
theorem step_goes_on_or_overlaps (s : State) :
    (∃ t, step s = .next t) ∨
      ∃ w rest, s.seq ≠ .idle ∧ s.stream = .present w :: rest ∧ step s = .fault (.overlap w) := by
  cases hst : s.stream with
  | nil => exact .inl ⟨_, step_of_stream_nil hst⟩
  | cons m rest =>
    cases m with
    | pause => exact .inl ⟨_, step_of_pause hst⟩
    | present w =>
      by_cases hidle : s.seq = .idle
      · exact .inl (exists_step_of_offers hidle (.inl hst))
      · exact .inr ⟨w, rest, hidle, rfl, (step_of_present hst).trans (presentWord_busy w hidle)⟩
    | issue w =>
      by_cases hidle : s.seq = .idle
      · exact .inl (exists_step_of_offers hidle (.inr hst))
      · exact .inl ⟨_, step_of_issue_busy hidle hst⟩

/-! What no step changes, or changes one way only. -/

theorem step_bitPos {s t : State} (h : step s = .next t) : t.bitPos = s.bitPos := by
  obtain ⟨w, rest, -, -, ⟨why, -, rfl⟩ | ⟨i, -, rfl⟩⟩ | ⟨moves, rfl⟩ := step_cases h <;> simp

/-- The record of a step that goes on: an illegal word that an idle block was offered is added to it and sets ILL, and
nothing else changes either (60_exceptions.md R222). -/
theorem step_record {s t : State} (h : step s = .next t) :
    (t.ill = s.ill ∧ t.faults = s.faults) ∨
      ∃ w rest why, s.Offers w rest ∧ decode w = .illegal why ∧ t.ill = true ∧
        t.faults = s.faults ++ [.illegalCommand w] := by
  obtain ⟨w, rest, hoffer, -, ⟨why, hd, rfl⟩ | ⟨i, -, rfl⟩⟩ | ⟨moves, rfl⟩ := step_cases h
  · exact .inr ⟨w, rest, why, hoffer, hd, rfl, rfl⟩
  · exact .inl ⟨s.accepted_ill i, s.accepted_faults i⟩
  · exact .inl ⟨s.sequence_ill, s.sequence_faults⟩

/-- Settles O12: no step changes BITPOS. -/
theorem bitPosNeverChanges : Obligations.BitPosNeverChanges := fun _ s _ h =>
  run_keeps (P := fun u => u.bitPos = s.bitPos) (fun _ _ hu hstep => (step_bitPos hstep).trans hu) rfl h

/-! Acceptance (R191). -/

/-- Settles O21: the accepted state is `beginSend`'s, and a send's events start with `CS <- 1`. -/
theorem sendsAreAccepted : Obligations.SendsAreAccepted := by
  intro s i hidle hi
  obtain ⟨bursts, -, -, hev⟩ := events_of_isSend hi s.fb
  refine ⟨_, .setCS true, _, exec_send hidle hi, hev, ?_⟩
  rw [hev]
  rfl

/-- Settles O33: an offered word that spells a command is executed. -/
theorem stepRunsTheDecodedCommand : Obligations.StepRunsTheDecodedCommand := by
  intro s w rest i hidle hd hoffer
  rw [step_of_offers hidle hoffer]
  exact presentWord_instr hidle hd

theorem decode_tableWord {nbits w : Nat} {i : Instr} (h : decodeTableWord nbits w = some i) :
    decode (tableWord nbits w) = .instr i := by
  unfold decodeTableWord at h
  split at h
  · next j hj => rw [hj, Option.some.inj h]
  · cases h

/-- Settles O34: `stepRunsTheDecodedCommand` for the word put in front of the host's moves. -/
theorem fetchedWordRuns : Obligations.FetchedWordRuns := fun s nbits w i hidle h =>
  stepRunsTheDecodedCommand (s.withFetchWord nbits w) (tableWord nbits w) s.stream i hidle (decode_tableWord h)
    (.inl rfl)

/-! Errors (60_exceptions.md). -/

theorem exec_busy {s : State} (i : Instr) (hbusy : s.seq ≠ .idle) : exec i s = .fault (.overlap (encode i)) := by
  obtain hs | ⟨v, e, rest, hs⟩ := s.seq.idle_or_busy
  · exact absurd hs hbusy
  · rw [exec_eq, acceptIdle_busy _ _ hs]

/-- Settles O44: neither the port nor a command's acceptance gives a busy block a next state. -/
theorem presentingWhileBusyIsOverlap : Obligations.PresentingWhileBusyIsOverlap := fun _ hbusy =>
  ⟨fun w _ hst => (step_of_present hst).trans (presentWord_busy w hbusy), fun i => exec_busy i hbusy⟩

/-- Settles O45: a step that does not go on is the one case of `step_goes_on_or_overlaps` that stops. -/
theorem overlapIsTheOnlyStop : Obligations.OverlapIsTheOnlyStop := by
  intro s
  obtain ⟨t, ht⟩ | ⟨w, rest, hbusy, hst, hf⟩ := step_goes_on_or_overlaps s
  · simp [ht]
  · rw [hf]
    refine ⟨fun r hr => ⟨w, rest, hbusy, hst, ?_⟩, fun r hr => by cases hr⟩
    injection hr with hr
    exact hr.symm

theorem State.HostObeys.tail {s t : State} (h : s.HostObeys) (hstep : step s = .next t) : t.HostObeys :=
  fun n u hu => h (n + 1) u (by rwa [run_succ_next hstep])

theorem State.HostSpells.tail {s t : State} (h : s.HostSpells) (hstep : step s = .next t) : t.HostSpells := by
  intro m hm
  refine h m ?_
  rcases step_stream hstep with hs | hs <;> rw [hs] at hm
  · exact hm
  · exact List.mem_of_mem_tail hm

/-- A host that presents only words that spell commands leaves the record as it is. -/
theorem State.Clean.step {s t : State} (hc : s.Clean) (hspell : s.HostSpells) (hstep : Machine.step s = .next t) :
    t.Clean := by
  obtain ⟨hill, hfaults⟩ | ⟨w, rest, why, hoffer, hd, -⟩ := step_record hstep
  · exact ⟨hill.trans hc.1, hfaults.trans hc.2⟩
  · obtain ⟨i, hi⟩ : ∃ i, decode w = .instr i := by
      rcases hoffer with hst | hst
      · exact hspell (.present w) (by simp [hst]) w (.inl rfl)
      · exact hspell (.issue w) (by simp [hst]) w (.inr rfl)
    rw [hd] at hi
    cases hi

/-- Settles O46: by induction on the steps; the host's three habits hold again after each, and rule out the one stop. -/
theorem obedientHostNeverFaults : Obligations.ObedientHostNeverFaults := by
  intro n
  induction n with
  | zero => exact fun s hc _ _ => ⟨s, rfl, hc⟩
  | succ n ih =>
    intro s hc hspell hobey
    obtain ⟨t, ht⟩ | ⟨w, rest, hbusy, hst, -⟩ := step_goes_on_or_overlaps s
    · obtain ⟨u, hu, hcu⟩ := ih t (hc.step hspell ht) (hspell.tail ht) (hobey.tail ht)
      exact ⟨u, by rwa [run_succ_next ht], hcu⟩
    · exact absurd hst (hobey 0 s rfl hbusy w rest)

/-- Settles O47: the offered word is presented, and recorded. -/
theorem illegalWordSetsTheFlag : Obligations.IllegalWordSetsTheFlag := by
  intro s w why rest hidle hd hoffer
  rw [step_of_offers hidle hoffer]
  exact presentWord_illegal hidle hd

/-- Settles O48: a step leaves the record or adds to it (`step_record`), so every run does. -/
theorem theFlagIsSticky : Obligations.TheFlagIsSticky := by
  refine fun n s t h => run_keeps (P := fun u => (s.ill = true → u.ill = true) ∧ s.faults <+: u.faults) ?_
    ⟨id, List.prefix_rfl⟩ h
  intro u v ⟨hill, hfaults⟩ hstep
  obtain ⟨hi, hf⟩ | ⟨w, rest, why, -, -, hi, hf⟩ := step_record hstep
  · rw [hi, hf]
    exact ⟨hill, hfaults⟩
  · rw [hf]
    exact ⟨fun _ => hi, hfaults.trans (List.prefix_append _ _)⟩

/-- Settles O49: of the two cases of `step_record` only the illegal word changes ILL. -/
theorem onlyIllegalWordsSetTheFlag : Obligations.OnlyIllegalWordsSetTheFlag := by
  intro s t hstep hclear hset
  obtain ⟨hi, -⟩ | ⟨w, rest, why, hoffer, hd, -, hf⟩ := step_record hstep
  · rw [hi, hclear] at hset
    cases hset
  · exact ⟨w, rest, why, hoffer, hd, hf⟩

/-- Settles O50: the accepted state carries ILL and the record along unread. -/
theorem commandsIgnoreTheFlag : Obligations.CommandsIgnoreTheFlag := fun s i ill faults hidle =>
  ⟨_, exec_idle i hidle, s.accepted_ill i, s.accepted_faults i,
    (exec_idle (s := { s with ill := ill, faults := faults }) i hidle).trans
      (congrArg _ (s.accepted_record_update ill faults i))⟩

end Sys2Proof.Machine
end


section
/-! PROOFS. The invariant of the block (`State.Inv`): what a send's next event can be, that acceptance and every
sequencer step keep the invariant, and what follows from it about the wire, the lines and the framebuffer. -/

namespace Sys2Proof.Machine

/-! The events of a send, taken apart at any one of them (R170, R190). -/

@[simp] theorem csAfter_append_setCS (es : List SeqEvent) (v : Bool) : csAfter (es ++ [.setCS v]) = v := by
  simp [csAfter]
@[simp] theorem csAfter_append_setEN (es : List SeqEvent) (v : Bool) : csAfter (es ++ [.setEN v]) = csAfter es := by
  simp [csAfter]
@[simp] theorem csAfter_append_write (es : List SeqEvent) (bytes : List Byte) :
    csAfter (es ++ [.write bytes]) = csAfter es := by simp [csAfter]
@[simp] theorem csAfter_append_fbFill (es : List SeqEvent) (v : Byte) : csAfter (es ++ [.fbFill v]) = csAfter es := by
  simp [csAfter]

/-- CS stays high while bursts are sent. -/
theorem csAfter_setCS_true_writes (bursts : List (List Byte)) : csAfter (.setCS true :: bursts.map .write) = true := by
  induction bursts using List.reverseRecOn with
  | nil => rfl
  | append_singleton bursts bytes ih =>
    rw [List.map_append, List.map_cons, List.map_nil, ← List.cons_append, csAfter_append_write, ih]

theorem csAfter_bracketed (bursts : List (List Byte)) : csAfter (bracketed bursts) = false :=
  csAfter_append_setCS _ false

/-- Bursts and more events, taken apart at one event: inside the bursts, or after all of them. -/
theorem map_write_append_eq {bursts : List (List Byte)} {tail p q : List SeqEvent} {e : SeqEvent}
    (h : bursts.map SeqEvent.write ++ tail = p ++ e :: q) :
    (∃ (sent : List (List Byte)) (bytes : List Byte), p = sent.map .write ∧ e = .write bytes ∧ bytes ∈ bursts) ∨
      ∃ p', p = bursts.map .write ++ p' ∧ tail = p' ++ e :: q := by
  induction bursts generalizing p with
  | nil => exact .inr ⟨p, rfl, h⟩
  | cons bytes bursts ih =>
    cases p with
    | nil =>
      injection h with he _
      exact .inl ⟨[], bytes, rfl, he.symm, List.mem_cons_self⟩
    | cons d p =>
      injection h with hd hrest
      subst hd
      rcases ih hrest with ⟨sent, b, rfl, he, hb⟩ | ⟨p', rfl, ht⟩
      · exact .inl ⟨bytes :: sent, b, rfl, he, List.mem_cons_of_mem _ hb⟩
      · exact .inr ⟨p', rfl, ht⟩

/-- What the next event of a send can be, and the level of CS before it: CS high first, then bursts, then CS low, and
CLEAR's fill as the last event of all. -/
inductive NextOfSend (i : Instr) : List SeqEvent → SeqEvent → List SeqEvent → Prop where
  | opens (q : List SeqEvent) : NextOfSend i [] (.setCS true) q
  | sends {p : List SeqEvent} {bytes : List Byte} (q : List SeqEvent) (hcs : csAfter p = true) (hne : bytes ≠ []) :
      NextOfSend i p (.write bytes) q
  | closes (p q : List SeqEvent) : NextOfSend i p (.setCS false) q
  | fills {p : List SeqEvent} (hclear : i = .clear) (hcs : csAfter p = false) : NextOfSend i p (.fbFill clearFill) []

theorem nextOfSend {i : Instr} (hi : isSend i = true) {m : Memory} {p q : List SeqEvent} {e : SeqEvent}
    (h : events i m = p ++ e :: q) : NextOfSend i p e q := by
  obtain ⟨bursts, -, hnil, hev⟩ := events_of_isSend hi m
  rw [hev, bracketed, List.append_assoc, List.append_assoc, List.singleton_append] at h
  cases p with
  | nil =>
    injection h with he _
    exact he ▸ .opens q
  | cons d p =>
    injection h with hd hrest
    subst hd
    rcases map_write_append_eq hrest with ⟨sent, bytes, rfl, rfl, hb⟩ | ⟨p', rfl, ht⟩
    · exact .sends q (csAfter_setCS_true_writes sent) (fun hbytes => hnil (hbytes ▸ hb))
    · cases p' with
      | nil =>
        injection ht with he _
        exact he ▸ .closes _ q
      | cons d p' =>
        rw [List.singleton_append, List.cons_append, List.cons.injEq] at ht
        obtain ⟨rfl, htail⟩ := ht
        by_cases hclear : i = .clear
        · rw [if_pos hclear, eq_comm, List.append_eq_singleton_iff] at htail
          obtain ⟨rfl, hfill⟩ | ⟨-, hfill⟩ := htail
          · injection hfill with he hq
            subst he hq
            exact .fills hclear (csAfter_bracketed bursts)
          · cases hfill
        · simp [hclear] at htail

/-- Every send ends with CS low. -/
theorem csAfter_events {i : Instr} (hi : isSend i = true) (m : Memory) : csAfter (events i m) = false := by
  obtain ⟨bursts, -, -, hev⟩ := events_of_isSend hi m
  rw [hev]
  split
  · rw [csAfter_append_fbFill, csAfter_bracketed]
  · rw [List.append_nil, csAfter_bracketed]

/-! The wire automaton over a trace that grows (R170, R171). -/

theorem lineLevels_append (levels : Bool × Bool) (before after : List TraceEvent) :
    lineLevels levels (before ++ after) = (lineLevels levels before).bind (lineLevels · after) := by
  induction before generalizing levels with
  | nil => rfl
  | cons e before ih =>
    cases e with
    | setCS v => exact ih _
    | setEN v =>
      simp only [List.cons_append, lineLevels]
      split
      · rfl
      · exact ih _
    | write bytes answer =>
      simp only [List.cons_append, lineLevels]
      split
      · exact ih _
      · rfl

/-- The automaton's CS is the level the sent events leave. -/
theorem csAfter_of_lineLevels {trace : List TraceEvent} {cs en : Bool}
    (h : lineLevels (false, false) trace = some (cs, en)) : csAfter (trace.map TraceEvent.sent) = cs := by
  induction trace using List.reverseRecOn generalizing cs en with
  | nil =>
    injection h with h
    exact congrArg Prod.fst h
  | append_singleton trace e ih =>
    rw [lineLevels_append, Option.bind_eq_some_iff] at h
    obtain ⟨⟨cs', en'⟩, hbefore, he⟩ := h
    rw [List.map_append, List.map_singleton]
    cases e with
    | setCS v => simp_all [lineLevels, TraceEvent.sent]
    | setEN v => simp_all [lineLevels, TraceEvent.sent]
    | write bytes answer => simp_all [lineLevels, TraceEvent.sent]

/-! The invariant's parts at each kind of step. -/

theorem State.seqConsistent_iff_of_idle {s : State} (h : s.seq = .idle) : s.SeqConsistent ↔ s.cs = false := by
  simp [State.SeqConsistent, h]

theorem State.seqConsistent_iff_of_busy {s : State} {w : Word} {e : SeqEvent} {rest : List SeqEvent}
    (h : s.seq = .busy w e rest) : s.SeqConsistent ↔ ∃ i performed, isSend i = true ∧ w = encode i ∧
      events i s.fb = performed ++ e :: rest ∧ s.cs = csAfter performed := by
  simp [State.SeqConsistent, h]

theorem State.perform_cs_of {s : State} {performed : List SeqEvent} (h : s.cs = csAfter performed) (e : SeqEvent) :
    (s.perform e).cs = csAfter (performed ++ [e]) := by
  cases e <;> simp [State.perform, h]

theorem State.wf_writePixel {s : State} (h : s.fb.wf) (x y : Byte) (black : Bool) : (s.writePixel x y black).fb.wf := by
  unfold State.writePixel
  split
  · exact Memory.wf_write h _ _
  · exact h

theorem State.wf_perform {s : State} (h : s.fb.wf) (e : SeqEvent) : (s.perform e).fb.wf := by
  cases e with
  | fbFill v => exact Memory.wf_fill v
  | setCS | setEN | write => exact h

theorem State.wf_accepted {s : State} (h : s.fb.wf) (i : Instr) : (s.accepted i).fb.wf := by
  cases i with
  | wrpix x y black => exact State.wf_writePixel h x y black
  | fbfill v => exact Memory.wf_fill v
  | flush | clear | dispmode | testpat | enable | disable => exact h

theorem State.Inv.stream_update {s : State} (h : s.Inv) (m : List HostMove) : { s with stream := m }.Inv :=
  ⟨h.memory, h.sequencer, h.wire, h.flag, h.recorded⟩

theorem State.Inv.raiseIllegal {s : State} (h : s.Inv) (w : Word) : (s.raiseIllegal w).Inv where
  memory := h.memory
  sequencer := h.sequencer
  wire := h.wire
  flag := by simp
  recorded := by
    intro f hf
    rw [State.raiseIllegal_faults, List.mem_append, List.mem_singleton] at hf
    rcases hf with hf | rfl
    · exact h.recorded f hf
    · exact ⟨w, rfl⟩

/-- A bracketed send is accepted with all its events pending and CS low, as none is performed yet. -/
theorem State.seqConsistent_beginSend {s : State} {i : Instr} (hi : isSend i = true) (hcs : s.cs = false) :
    (s.beginSend (encode i) (events i s.fb)).SeqConsistent := by
  obtain ⟨bursts, -, -, hev⟩ := events_of_isSend hi s.fb
  refine (State.seqConsistent_iff_of_busy (s := s.beginSend (encode i) (events i s.fb)) (w := encode i)
    (by rw [State.beginSend_seq, hev]; rfl)).2 ⟨i, [], hi, rfl, hev, hcs⟩

theorem State.Inv.accepted {s : State} (h : s.Inv) (hidle : s.seq = .idle) (i : Instr) : (s.accepted i).Inv := by
  have hcs : s.cs = false := (State.seqConsistent_iff_of_idle hidle).1 h.sequencer
  refine ⟨State.wf_accepted h.memory i, ?_, ?_, by simpa using h.flag, by simpa using h.recorded⟩
  · cases hi : isSend i with
    | true =>
      rw [State.accepted_of_isSend hi]
      exact State.seqConsistent_beginSend hi hcs
    | false =>
      have hseq : (s.accepted i).seq = .idle := by
        cases i with
        | wrpix | fbfill | enable | disable => simp [State.accepted, hidle]
        | flush | clear | dispmode | testpat => cases hi
      rw [State.seqConsistent_iff_of_idle hseq, State.accepted_cs, hcs]
  · cases i with
    | enable | disable => simp [State.accepted, lineLevels_append, h.wire, lineLevels, hcs]
    | wrpix | fbfill | flush | clear | dispmode | testpat => simpa [State.accepted] using h.wire

/-- What is left of a send after its next event is still consistent with the framebuffer: the one event that changes it
is the last. -/
theorem State.seqConsistent_sequence {s : State} {i : Instr} {performed rest : List SeqEvent} {e : SeqEvent}
    (hi : isSend i = true) (hs : s.seq = .busy (encode i) e rest) (hev : events i s.fb = performed ++ e :: rest)
    (hcs : s.cs = csAfter performed) : s.sequence.SeqConsistent := by
  have hcs' : s.sequence.cs = csAfter (performed ++ [e]) := by
    rw [State.sequence_busy hs]
    exact State.perform_cs_of hcs e
  rw [List.append_cons] at hev
  cases rest with
  | nil =>
    rw [List.append_nil] at hev
    rw [State.seqConsistent_iff_of_idle (by rw [State.sequence_busy hs]; rfl), hcs', ← hev, csAfter_events hi]
  | cons f rest =>
    have hfb : s.sequence.fb = s.fb := by
      rw [State.sequence_busy hs]
      cases nextOfSend hi (hev.trans (List.append_cons _ _ _).symm) <;> rfl
    refine (State.seqConsistent_iff_of_busy (w := encode i) (by rw [State.sequence_busy hs]; rfl)).2
      ⟨i, performed ++ [e], hi, rfl, ?_, hcs'⟩
    rw [hfb, hev]

/-- The next event of a send keeps the rules of the wire. -/
theorem State.wire_perform {s : State} {i : Instr} {performed rest : List SeqEvent} {e : SeqEvent}
    (hnext : NextOfSend i performed e rest) (hcs : s.cs = csAfter performed)
    (hwire : lineLevels (false, false) s.trace = some (s.cs, s.en)) :
    lineLevels (false, false) (s.perform e).trace = some ((s.perform e).cs, (s.perform e).en) := by
  cases hnext with
  | opens | closes => simp [State.perform, lineLevels_append, hwire, lineLevels]
  | sends _ hhigh hne => simp [State.perform, lineLevels_append, hwire, lineLevels, hcs, hhigh, hne]
  | fills => simpa [State.perform] using hwire

theorem State.Inv.sequence {s : State} (h : s.Inv) : s.sequence.Inv := by
  obtain hs | ⟨w, e, rest, hs⟩ := s.seq.idle_or_busy
  · rwa [State.sequence_idle hs]
  · obtain ⟨i, performed, hi, rfl, hev, hcs⟩ := (State.seqConsistent_iff_of_busy hs).1 h.sequencer
    refine ⟨?_, State.seqConsistent_sequence hi hs hev hcs, ?_, by simpa using h.flag, by simpa using h.recorded⟩
    · rw [State.sequence_busy hs]
      exact State.wf_perform h.memory e
    · rw [State.sequence_busy hs]
      exact State.wire_perform (nextOfSend hi hev) hcs h.wire

/-- Settles O39: each of the three kinds of step in `step_cases` keeps the invariant. -/
theorem invariantIsKept : Obligations.InvariantIsKept := by
  intro s t h hstep
  obtain ⟨w, rest, -, hidle, ⟨why, -, rfl⟩ | ⟨i, -, rfl⟩⟩ | ⟨moves, rfl⟩ := step_cases hstep
  · exact (h.raiseIllegal w).stream_update rest
  · exact (h.accepted hidle i).stream_update rest
  · exact h.sequence.stream_update moves

/-- Settles O38: nothing is stored, pending or recorded, and the two line events of construction leave both lines
low. -/
theorem invariantAtReset : Obligations.InvariantAtReset := fun _ _ _ =>
  ⟨Memory.wf_nil, rfl, rfl, by simp [State.resetWith], by simp [State.resetWith]⟩

/-! What the invariant says of the wire and of who writes the lines and the framebuffer. -/

/-- A burst in a trace the automaton passes is not empty and is sent with CS high (R171, 10_state.md R31). -/
theorem burst_of_lineLevels {before after : List TraceEvent} {bytes : List Byte} {answer : BusAnswer}
    {levels : Bool × Bool} (h : lineLevels (false, false) (before ++ .write bytes answer :: after) = some levels) :
    csAfter (before.map TraceEvent.sent) = true ∧ bytes ≠ [] := by
  rw [lineLevels_append, Option.bind_eq_some_iff] at h
  obtain ⟨⟨cs, en⟩, hbefore, hwrite⟩ := h
  rw [csAfter_of_lineLevels hbefore]
  rw [lineLevels] at hwrite
  split at hwrite
  · next hok => simpa using hok
  · cases hwrite

/-- Settles O40: the state reached meets the invariant, whose wire part `burst_of_lineLevels` reads. -/
theorem noByteWhileDeselected : Obligations.NoByteWhileDeselected := by
  intro b moves d n t before after bytes answer hrun _ htrace
  have hinv : t.Inv := run_keeps invariantIsKept (invariantAtReset b moves d) hrun
  exact burst_of_lineLevels (htrace ▸ hinv.wire)

/-- Settles O41: acceptance leaves CS alone, and of the pending events only `SetCS` changes it. -/
theorem chipSelectIsTheSequencers : Obligations.ChipSelectIsTheSequencers := by
  intro s t hstep hne
  obtain ⟨w, rest, -, -, ⟨why, -, rfl⟩ | ⟨i, -, rfl⟩⟩ | ⟨moves, rfl⟩ := step_cases hstep
  · exact absurd rfl hne
  · exact absurd (s.accepted_cs i) hne
  · obtain hs | ⟨w, e, rest, hs⟩ := s.seq.idle_or_busy
    · rw [State.sequence_idle hs] at hne
      exact absurd rfl hne
    · rw [State.sequence_busy hs] at hne ⊢
      cases e with
      | setEN | write | fbFill => exact absurd rfl hne
      | setCS v =>
        refine ⟨w, rest, hs, fun hinv => ?_⟩
        obtain ⟨i, _, hi, hw, _⟩ := (State.seqConsistent_iff_of_busy hs).1 hinv.sequencer
        exact ⟨i, hi, hw⟩

/-- The sequencer of a block that meets the invariant performs no write of EN. -/
theorem State.Inv.sequence_en {s : State} (h : s.Inv) : s.sequence.en = s.en := by
  obtain hs | ⟨w, e, rest, hs⟩ := s.seq.idle_or_busy
  · rw [State.sequence_idle hs]
  · obtain ⟨i, performed, hi, -, hev, -⟩ := (State.seqConsistent_iff_of_busy hs).1 h.sequencer
    rw [State.sequence_busy hs]
    cases nextOfSend hi hev <;> simp [State.perform]

/-- Settles O42: of the accepted commands only ENABLE and DISABLE change EN, and the sequencer never does. -/
theorem enableIsWrittenByTwoCommands : Obligations.EnableIsWrittenByTwoCommands := by
  intro s t hinv hstep hne
  obtain ⟨w, rest, hoffer, hidle, ⟨why, -, rfl⟩ | ⟨i, hd, rfl⟩⟩ | ⟨moves, rfl⟩ := step_cases hstep
  · exact absurd rfl hne
  · refine ⟨w, rest, hoffer, hidle, ?_⟩
    cases i with
    | enable => exact .inl ⟨hd, rfl⟩
    | disable => exact .inr ⟨hd, rfl⟩
    | wrpix | fbfill | flush | clear | dispmode | testpat => simp [State.accepted] at hne
  · exact absurd hinv.sequence_en hne

/-- Settles O43: of the accepted commands only WRPIX and FBFILL change the framebuffer, and of a send's events only
CLEAR's fill, which is its last. -/
theorem framebufferHasThreeWriters : Obligations.FramebufferHasThreeWriters := by
  intro s t hinv hstep hne
  obtain ⟨w, rest, hoffer, hidle, ⟨why, -, rfl⟩ | ⟨i, hd, rfl⟩⟩ | ⟨moves, rfl⟩ := step_cases hstep
  · exact absurd rfl hne
  · refine .inl ⟨w, rest, hoffer, hidle, ?_⟩
    cases i with
    | wrpix x y black => exact .inl ⟨x, y, black, hd⟩
    | fbfill v => exact .inr ⟨v, hd⟩
    | flush | clear | dispmode | testpat | enable | disable => exact absurd rfl hne
  · obtain hs | ⟨w, e, rest, hs⟩ := s.seq.idle_or_busy
    · rw [State.sequence_idle hs] at hne
      exact absurd rfl hne
    · obtain ⟨i, performed, hi, rfl, hev, -⟩ := (State.seqConsistent_iff_of_busy hs).1 hinv.sequencer
      rw [State.sequence_busy hs] at hne ⊢
      cases nextOfSend hi hev with
      | opens | sends | closes => exact absurd rfl hne
      | fills hclear =>
        subst hclear
        exact .inr ⟨hs, rfl⟩

end Sys2Proof.Machine
end


section
/-! PROOFS. Reset, the status word and the parameters (10_state.md, 00_scope.md R8,
40_row_address_transform.md R113). -/

namespace Sys2Proof.Machine

/-- Settles O8: the reset state is the table, read field by field. -/
theorem resetLeavesTheTable : Obligations.ResetLeavesTheTable := fun _ _ _ =>
  ⟨Memory.read_nil, rfl, rfl, rfl, rfl, by simp [State.status, State.isBusy, State.resetWith]⟩

theorem State.construct_eq (s : State) : s.construct = State.resetWith s.bitPos s.stream s.bursts := rfl

/-- Settles O9: `State.construct_eq`, and the reset state's trace is the two line events. -/
theorem constructionForgetsWhatWasThere : Obligations.ConstructionForgetsWhatWasThere := fun s =>
  ⟨s.construct_eq, congrArg State.trace s.construct_eq⟩

theorem State.isBusy_iff (s : State) : s.isBusy = true ↔ s.seq ≠ .idle := by
  obtain hs | ⟨w, e, rest, hs⟩ := s.seq.idle_or_busy <;> simp [State.isBusy, hs]

/-- The status word bit by bit (10_state.md R30). -/
theorem State.getLsbD_status (s : State) (k : Nat) : s.status.getLsbD k =
    if k = 0 then s.isBusy else if k = 1 then s.cs else if k = 2 then s.en else if k = 3 then s.ill else false := by
  rw [State.status, BitVec.getLsbD_append, BitVec.getLsbD_append, BitVec.getLsbD_append, BitVec.getLsbD_append]
  simp only [BitVec.getLsbD_ofBool, BitVec.getLsbD_zero]
  rcases k with _ | _ | _ | _ | k <;> simp

/-- Settles O10: `State.getLsbD_status` at each bit. -/
theorem statusWordShowsTheState : Obligations.StatusWordShowsTheState := by
  refine fun s => ⟨?_, s.getLsbD_status 1, s.getLsbD_status 2, s.getLsbD_status 3, fun k hk => ?_⟩
  · rw [s.getLsbD_status 0]
    exact s.isBusy_iff
  · rw [s.getLsbD_status k, if_neg (by omega), if_neg (by omega), if_neg (by omega), if_neg (by omega)]

theorem bitPosAt_default (k : Fin 8) : bitPosAt Config.defaultBitPos k = k := by
  revert k
  decide

/-- Settles O11: BITPOS is injective (`bitPosAt_injective`) on a finite type; the default is read entry by entry. -/
theorem bitPosIsABijection : Obligations.BitPosIsABijection :=
  ⟨fun b => Finite.injective_iff_bijective.1 (bitPosAt_injective b), bitPosAt_default⟩

theorem rowAddr_injective : Function.Injective rowAddr := by
  intro i j h
  have hbytes := congrArg BitVec.toNat (reverse8_involutive.injective h)
  rw [BitVec.toNat_ofNat, BitVec.toNat_ofNat] at hbytes
  exact Fin.ext (by omega)

theorem rowAddr_ne_zero (i : Coord) : rowAddr i ≠ 0#8 := by
  intro h
  have hbytes := congrArg BitVec.toNat (reverse8_involutive.injective (h.trans (show 0#8 = reverse8 0#8 by decide)))
  rw [BitVec.toNat_ofNat, BitVec.toNat_ofNat] at hbytes
  omega

/-- Settles O15: REVERSE8 is injective, and the 1-based indexes of the rows are distinct bytes other than 0. -/
theorem rowAddressesAreDistinct : Obligations.RowAddressesAreDistinct :=
  ⟨rowAddr_injective, rowAddr_ne_zero, by decide, by decide⟩

end Sys2Proof.Machine
end

section
/-! PROOFS. Completion and the whole commands (43_panel_transport.md, section 3; 20_memory.md, section 5): the runs of
CLEAR and TESTPAT, that a busy block comes to its end, and that the step form is the commands' pseudocode, for one
command and for a list issued in order; and that no answer of the bus is read (R183). -/

namespace Sys2Proof.Machine

/-- Settles O25: after CLEAR's bracket its fill alone is pending (`run_bracketed`). -/
theorem clearFillsAfterTheBracket : Obligations.ClearFillsAfterTheBracket := fun _ hidle hw =>
  ⟨_, _, exec_send hidle rfl, run_bracketed (encode .clear) [clearSeq] [.fbFill clearFill] hw, rfl, rfl, rfl, rfl⟩

/-- Settles O27: `run_bracketed_idle` with the one burst of TESTPAT. -/
theorem testpatSends : Obligations.TestpatSends :=
  ⟨by decide, fun s hidle hw => ⟨_, _, Config.busAnswer s.bursts, exec_send hidle rfl,
    run_bracketed_idle (encode .testpat) [testpatSeq] hidle hw, rfl⟩⟩

theorem State.exists_seq_eq_ofPending (s : State) : ∃ w, s.seq = Seq.ofPending w s.pending := by
  obtain hs | ⟨w, e, rest, hs⟩ := s.seq.idle_or_busy
  · exact ⟨0#32, by simp [State.pending, hs]⟩
  · exact ⟨w, by simp [State.pending, hs]⟩

theorem Seq.ofPending_ne_idle (w : Word) {es : List SeqEvent} (h : es ≠ []) : Seq.ofPending w es ≠ .idle := by
  cases es with
  | nil => exact absurd rfl h
  | cons e es => simp

/-- While the host waits, `k` steps leave what is pending after the first `k` events. -/
theorem run_pending {s : State} (hw : s.HostWaits) {k : Nat} (hk : k ≤ s.pending.length) :
    ∃ w, run k s = .next { s.performAll (s.pending.take k) with seq := Seq.ofPending w (s.pending.drop k) } := by
  obtain ⟨w, hs⟩ := s.exists_seq_eq_ofPending
  have h := run_performs w (s.pending.take k) (s.pending.drop k) hw (by rw [List.take_append_drop, ← hs])
  rw [List.length_take_of_le hk] at h
  exact ⟨w, h⟩

/-- Settles O35: `run_pending` before and at the end of the pending events; the four counts are lengths of brackets. -/
theorem everyCommandCompletes : Obligations.EveryCommandCompletes := by
  refine ⟨fun s hw => ⟨fun k hk => ?_, ?_⟩, fun m => ⟨?_, rfl, rfl, rfl⟩⟩
  · obtain ⟨w, h⟩ := run_pending hw hk.le
    refine ⟨_, h, (State.isBusy_iff _).2 (Seq.ofPending_ne_idle w ?_)⟩
    simpa using hk
  · obtain ⟨w, h⟩ := run_pending hw le_rfl
    rw [List.drop_length] at h
    exact ⟨_, h, rfl⟩
  · rw [events, length_bracketed, length_flushBursts]

/-! The step form and the pseudocode (R193). -/

/-- A send's pseudocode performs the events of its step form (Laws/BigStep.lean). -/
theorem State.whole_of_isSend {s : State} (hwf : s.fb.wf) {i : Instr} (hi : isSend i = true) :
    s.whole i = s.performAll (events i s.fb) := by
  cases i with
  | flush => exact s.whole_flush
  | clear => exact State.whole_clear hwf
  | dispmode => exact s.whole_dispmode
  | testpat => exact s.whole_testpat
  | wrpix | fbfill | enable | disable => cases hi

/-- A command that is no send is complete in its accepting step. -/
theorem State.whole_of_not_isSend {s : State} (hwf : s.fb.wf) {i : Instr} (hi : isSend i = false) :
    s.whole i = s.accepted i := by
  cases i with
  | fbfill v => exact State.whole_fbfill hwf v
  | wrpix | enable | disable => rfl
  | flush | clear | dispmode | testpat => cases hi

theorem State.accepted_seq_of_not_isSend (s : State) {i : Instr} (hi : isSend i = false) :
    (s.accepted i).seq = s.seq := by
  cases i with
  | wrpix | fbfill | enable | disable => simp [State.accepted]
  | flush | clear | dispmode | testpat => cases hi

/-- The accepted state run to the end of its pending events is the whole command's (R193). -/
theorem run_accepted_eq_whole {s : State} (hidle : s.seq = .idle) (hwf : s.fb.wf) (hw : s.HostWaits) (i : Instr) :
    run (s.accepted i).pending.length (s.accepted i) = .next (s.whole i) := by
  cases hi : isSend i with
  | true =>
    rw [State.whole_of_isSend hwf hi, State.accepted_of_isSend hi,
      State.pending_of_seq_ofPending (State.beginSend_seq s _ _)]
    exact run_beginSend_idle (encode i) _ hidle hw
  | false =>
    have hp : (s.accepted i).pending = [] :=
      State.pending_of_seq_ofPending (w := 0#32) ((s.accepted_seq_of_not_isSend hi).trans hidle)
    rw [hp, State.whole_of_not_isSend hwf hi]
    rfl

/-- Settles O36: `run_accepted_eq_whole` from the accepted state. -/
theorem stepFormEqualsWholeCommand : Obligations.StepFormEqualsWholeCommand := fun _ i hidle hwf hw =>
  ⟨_, exec_idle i hidle, run_accepted_eq_whole hidle hwf hw i⟩

/-! Lists of issued commands (20_memory.md R65, R66). -/

theorem State.performAll_wf {s : State} (hwf : s.fb.wf) (es : List SeqEvent) : (s.performAll es).fb.wf := by
  induction es generalizing s with
  | nil => exact hwf
  | cons e es ih => exact ih (State.wf_perform hwf e)

theorem State.wf_whole {s : State} (hwf : s.fb.wf) (i : Instr) : (s.whole i).fb.wf := by
  cases hi : isSend i with
  | true => rw [State.whole_of_isSend hwf hi]; exact State.performAll_wf hwf _
  | false => rw [State.whole_of_not_isSend hwf hi]; exact State.wf_accepted hwf i

theorem State.whole_seq {s : State} (hwf : s.fb.wf) (i : Instr) : (s.whole i).seq = s.seq := by
  cases hi : isSend i with
  | true => rw [State.whole_of_isSend hwf hi, State.performAll_seq]
  | false => rw [State.whole_of_not_isSend hwf hi, s.accepted_seq_of_not_isSend hi]

theorem State.whole_stream_update {s : State} (hwf : s.fb.wf) (m : List HostMove) (i : Instr) :
    { s with stream := m }.whole i = { s.whole i with stream := m } := by
  cases hi : isSend i with
  | true =>
    rw [State.whole_of_isSend hwf hi, State.whole_of_isSend (s := { s with stream := m }) hwf hi,
      State.performAll_stream_update]
  | false =>
    rw [State.whole_of_not_isSend hwf hi, State.whole_of_not_isSend (s := { s with stream := m }) hwf hi,
      State.accepted_stream_update]

theorem State.foldl_whole_stream_update {s : State} (hwf : s.fb.wf) (m : List HostMove) (is : List Instr) :
    is.foldl State.whole { s with stream := m } = { is.foldl State.whole s with stream := m } := by
  induction is generalizing s with
  | nil => rfl
  | cons i is ih => rw [List.foldl_cons, List.foldl_cons, State.whole_stream_update hwf, ih (State.wf_whole hwf i)]

theorem hostWaits_of_hostMoves {s : State} {is : List Instr} (h : s.stream = hostMoves is) : s.HostWaits := by
  cases is with
  | nil => exact .inl h
  | cons i is => exact .inr ⟨encode i, hostMoves is, h⟩

/-- An idle block issued a command accepts it. -/
theorem step_of_issue_encode {s : State} (hidle : s.seq = .idle) {i : Instr} {rest : List HostMove}
    (hst : s.stream = .issue (encode i) :: rest) : step s = .next ({ s with stream := rest }.accepted i) :=
  (stepRunsTheDecodedCommand s _ rest i hidle (decodeOfEncodeGivesTheCommand i) (.inr hst)).trans (exec_idle i hidle)

/-- A host that issues a list of commands has its first one run as a whole command, and then the rest to issue. -/
theorem run_issue_eq_whole {s : State} (hidle : s.seq = .idle) (hwf : s.fb.wf) {i : Instr} {is : List Instr}
    (hst : s.stream = hostMoves (i :: is)) : ∃ n, run n s = .next { s.whole i with stream := hostMoves is } := by
  have hrun := run_accepted_eq_whole (s := { s with stream := hostMoves is }) hidle hwf (hostWaits_of_hostMoves rfl) i
  refine ⟨_, (run_succ_next (step_of_issue_encode hidle hst)).trans (hrun.trans ?_)⟩
  rw [State.whole_stream_update hwf]

/-- Settles O37: by induction on the list; each command runs as a whole one (`run_issue_eq_whole`) and leaves an idle
block for the rest. -/
theorem issuedCommandsTakeEffectInOrder : Obligations.IssuedCommandsTakeEffectInOrder := by
  intro is
  induction is with
  | nil =>
    intro s _ _ hst
    have hnil : s.stream = [] := hst
    exact ⟨0, by rw [run_zero, List.foldl_nil, ← hnil]⟩
  | cons i is ih =>
    intro s hidle hwf hst
    obtain ⟨m, hm⟩ := run_issue_eq_whole hidle hwf hst
    obtain ⟨n, hn⟩ := ih { s.whole i with stream := hostMoves is } ((State.whole_seq hwf i).trans hidle)
      (State.wf_whole hwf i) rfl
    refine ⟨m + n, ?_⟩
    rw [run_add m n hm, hn, State.foldl_whole_stream_update (State.wf_whole hwf i), List.foldl_cons]

/-! The bus's answers (R183). -/

/-- Agreeing but for answers, as the one state with another trace and another draw counter. -/
theorem agreeButForAnswers_iff {s t : State} : AgreeButForAnswers s t ↔
    ∃ trace n, s = { t with trace := trace, bursts := n } ∧ trace.map TraceEvent.sent = t.trace.map TraceEvent.sent :=
  ⟨fun ⟨htrace, hs⟩ => ⟨s.trace, s.bursts, hs, htrace⟩, fun ⟨_, _, hs, htrace⟩ => hs ▸ ⟨htrace, rfl⟩⟩

theorem AgreeButForAnswers.seq_eq {s t : State} (h : AgreeButForAnswers s t) : s.seq = t.seq := by rw [h.2]

theorem AgreeButForAnswers.stream_eq {s t : State} (h : AgreeButForAnswers s t) : s.stream = t.stream := by rw [h.2]

theorem AgreeButForAnswers.stream_update {s t : State} (h : AgreeButForAnswers s t) (m : List HostMove) :
    AgreeButForAnswers { s with stream := m } { t with stream := m } := by
  obtain ⟨trace, n, rfl, htrace⟩ := agreeButForAnswers_iff.1 h
  exact ⟨htrace, rfl⟩

theorem AgreeButForAnswers.seq_update {s t : State} (h : AgreeButForAnswers s t) (q : Seq) :
    AgreeButForAnswers { s with seq := q } { t with seq := q } := by
  obtain ⟨trace, n, rfl, htrace⟩ := agreeButForAnswers_iff.1 h
  exact ⟨htrace, rfl⟩

theorem AgreeButForAnswers.perform {s t : State} (h : AgreeButForAnswers s t) (e : SeqEvent) :
    AgreeButForAnswers (s.perform e) (t.perform e) := by
  obtain ⟨trace, n, rfl, htrace⟩ := agreeButForAnswers_iff.1 h
  refine agreeButForAnswers_iff.2 ?_
  cases e with
  | setCS v => exact ⟨trace ++ [.setCS v], n, rfl, by simp [State.perform, htrace]⟩
  | setEN v => exact ⟨trace ++ [.setEN v], n, rfl, by simp [State.perform, htrace]⟩
  | write bytes =>
    exact ⟨trace ++ [.write bytes (Config.busAnswer n)], n + 1, rfl, by simp [State.perform, htrace, TraceEvent.sent]⟩
  | fbFill v => exact ⟨trace, n, rfl, htrace⟩

theorem AgreeButForAnswers.accepted {s t : State} (h : AgreeButForAnswers s t) (i : Instr) :
    AgreeButForAnswers (s.accepted i) (t.accepted i) := by
  cases i with
  | enable => exact h.perform (.setEN true)
  | disable => exact h.perform (.setEN false)
  | fbfill v => exact h.perform (.fbFill v)
  | wrpix x y black =>
    obtain ⟨trace, n, rfl, htrace⟩ := agreeButForAnswers_iff.1 h
    simp only [State.accepted, State.writePixel]
    split <;> exact ⟨htrace, rfl⟩
  | flush | clear | dispmode | testpat =>
    obtain ⟨trace, n, rfl, htrace⟩ := agreeButForAnswers_iff.1 h
    exact ⟨htrace, rfl⟩

theorem AgreeButForAnswers.sequence {s t : State} (h : AgreeButForAnswers s t) :
    AgreeButForAnswers s.sequence t.sequence := by
  have hseq := h.seq_eq
  obtain hs | ⟨w, e, rest, hs⟩ := s.seq.idle_or_busy
  · rwa [State.sequence_idle hs, State.sequence_idle (hseq ▸ hs)]
  · rw [State.sequence_busy hs, State.sequence_busy (hseq ▸ hs)]
    exact (h.perform e).seq_update _

/-- Two outcomes that are alike but for the bus's answers: both next states, or the same fault. -/
def OutcomesAgree (o p : Host.Outcome State Fault Refusal) : Prop :=
  (∃ s t, o = .next s ∧ p = .next t ∧ AgreeButForAnswers s t) ∨ ∃ r, o = .fault r ∧ p = .fault r

theorem AgreeButForAnswers.presentWord {s t : State} (h : AgreeButForAnswers s t) (w : Word) :
    OutcomesAgree (presentWord w s) (presentWord w t) := by
  have hseq := h.seq_eq
  by_cases hidle : s.seq = .idle
  · cases hd : decode w with
    | illegal why =>
      refine .inl ⟨_, _, presentWord_illegal hidle hd, presentWord_illegal (hseq ▸ hidle) hd, ?_⟩
      obtain ⟨trace, n, rfl, htrace⟩ := agreeButForAnswers_iff.1 h
      exact ⟨htrace, rfl⟩
    | instr i =>
      rw [presentWord_instr hidle hd, presentWord_instr (hseq ▸ hidle) hd]
      exact .inl ⟨_, _, exec_idle i hidle, exec_idle i (hseq ▸ hidle), h.accepted i⟩
  · exact .inr ⟨_, presentWord_busy w hidle, presentWord_busy w (hseq ▸ hidle)⟩

theorem AgreeButForAnswers.step {s t : State} (h : AgreeButForAnswers s t) : OutcomesAgree (step s) (step t) := by
  have hseq := h.seq_eq
  have hstream := h.stream_eq
  cases hs : s.stream with
  | nil => exact .inl ⟨_, _, step_of_stream_nil hs, step_of_stream_nil (hstream ▸ hs), h.sequence⟩
  | cons m rest =>
    have ht : t.stream = m :: rest := hstream ▸ hs
    cases m with
    | pause => exact .inl ⟨_, _, step_of_pause hs, step_of_pause ht, (h.stream_update rest).sequence⟩
    | present w =>
      rw [step_of_present hs, step_of_present ht]
      exact (h.stream_update rest).presentWord w
    | issue w =>
      by_cases hidle : s.seq = .idle
      · rw [step_of_offers hidle (.inr hs), step_of_offers (hseq ▸ hidle) (.inr ht)]
        exact (h.stream_update rest).presentWord w
      · exact .inl ⟨_, _, step_of_issue_busy hidle hs, step_of_issue_busy (hseq ▸ hidle) ht, h.sequence⟩

theorem AgreeButForAnswers.run {s t : State} (h : AgreeButForAnswers s t) (n : Nat) :
    OutcomesAgree (run n s) (run n t) := by
  induction n generalizing s t with
  | zero => exact .inl ⟨s, t, rfl, rfl, h⟩
  | succ n ih =>
    obtain ⟨s', t', hs, ht, h'⟩ | ⟨r, hs, ht⟩ := h.step
    · rw [run_succ_next hs, run_succ_next ht]
      exact ih h'
    · exact .inr ⟨r, by rw [run_succ, hs], by rw [run_succ, ht]⟩

/-- Settles O32: the two runs' outcomes agree (`AgreeButForAnswers.run`), whatever kind the first one's is. -/
theorem busAnswersInfluenceNothing : Obligations.BusAnswersInfluenceNothing := by
  intro n s t h
  obtain ⟨s', t', hs, ht, h'⟩ | ⟨r, hs, ht⟩ := h.run n
  · refine ⟨fun u hu => ⟨t', ht, ?_⟩, fun r hr => by simp [hs] at hr⟩
    rw [hs] at hu
    injection hu with hu
    exact hu ▸ h'
  · exact ⟨fun u hu => by simp [hs] at hu, fun r' hr => by rw [ht, ← hs, hr]⟩

end Sys2Proof.Machine
end


section
/-! PROOFS. Order and loss (70_reset_and_hazards.md, section 3): a FLUSH sends the pixel just written, and CLEAR loses
what was in the framebuffer. -/

namespace Sys2Proof.Machine

theorem State.writePixel_coord (s : State) (x y : Coord) (black : Bool) :
    s.writePixel (BitVec.ofNat 8 x.val) (BitVec.ofNat 8 y.val) black = s.writePixelAt x y black := by
  have hx : (BitVec.ofNat 8 x.val).toNat < 128 := by rw [coord_ofNat]; exact x.isLt
  have hy : (BitVec.ofNat 8 y.val).toNat < 128 := by rw [coord_ofNat]; exact y.isLt
  rw [State.writePixel_in s black hx hy]
  congr 1 <;> exact Fin.ext (coord_ofNat _)

/-- Row `y`'s burst of a FLUSH is the one after the start byte and the `y` rows before it (R174). -/
theorem getElem?_flushBursts_row (m : Memory) (y : Coord) : (flushBursts m)[y.val + 1]? = some (rowRecord m y) := by
  have hy : y.val < ((List.finRange 128).map (rowRecord m)).length := by simp
  rw [flushBursts, List.append_assoc, List.singleton_append, List.getElem?_cons_succ, List.getElem?_append_left hy]
  simp

/-- Pixel `(x, y)` stands in byte `x div 8` of its row (20_memory.md R51, R56). -/
theorem getElem?_rowBytes_pixelByte (m : Memory) (x y : Coord) :
    (rowBytes m y)[x.val / 8]? = some (m.read (pixelAddr x y)) := by
  have hx : x.val / 8 < 16 := by omega
  simp [rowBytes, hx, pixelAddr, pixelByte]

/-- Settles O51: the burst of row `y` holds the byte the pixel stands in, and `State.pixel_writePixelAt` gives its
bit. -/
theorem flushSendsThePixelJustWritten : Obligations.FlushSendsThePixelJustWritten := by
  intro s x y black hidle hw
  have hpixel : (s.writePixelAt x y black).pixel x y = !black := by
    rw [State.pixel_writePixelAt, if_pos ⟨rfl, rfl⟩]
  have hidle' : (s.writePixelAt x y black).seq = .idle := hidle
  refine ⟨s.writePixelAt x y black, _, _, bracketTrace s.bursts (flushBursts (s.writePixelAt x y black).fb),
    rowBytes (s.writePixelAt x y black).fb y, ?_, exec_send hidle' rfl, run_flush hidle' hw, rfl, ?_, ?_⟩
  · rw [exec_idle _ hidle, State.accepted, State.writePixel_coord]
  · rw [burstsOf_bracketTrace]
    exact getElem?_flushBursts_row _ y
  · rw [getElem?_rowBytes_pixelByte, Option.map_some, ← hpixel]
    rfl

/-- Settles O52: what `run_clear` leaves does not have the old framebuffer in it. -/
theorem clearLosesWhatWasThere : Obligations.ClearLosesWhatWasThere := fun s m hidle hw =>
  ⟨_, _, _, exec_send hidle rfl, exec_send (s := { s with fb := m }) hidle rfl, run_clear hidle hw,
    run_clear (s := { s with fb := m }) hidle hw⟩

end Sys2Proof.Machine
end

section
/-! PROOFS. The drawing pseudo-operations (42_drawing_pseudo_ops.md): a framebuffer is its pixels, and the pixels that
RECT, CIRCLE and CHECKER name. -/

namespace Sys2Proof.Machine

/-! Lists of WRPIX in any order. -/

/-- Every bit of every byte is some pixel (20_memory.md R51, R52). -/
theorem exists_pixel_place (b : BitPos) (a : Addr) (k : Fin 8) :
    ∃ x y : Coord, pixelAddr x y = a ∧ pixelBit b x = k := by
  obtain ⟨j, hj⟩ := (bitPosIsABijection.1 b).surjective k
  have hj8 := j.isLt
  have ha := a.isLt
  refine ⟨⟨8 * (a.val % 16) + j.val, by omega⟩, ⟨a.val / 16, by omega⟩, Fin.ext ?_, ?_⟩
  · simp only [pixelAddr, byteAddr, pixelByte]
    omega
  · rw [← hj, pixelBit]
    congr 1
    exact Fin.ext (by simp only; omega)

/-- Canonical framebuffers with the same pixels are the same. -/
theorem State.fb_ext_of_pixel {s t : State} (hs : s.fb.wf) (ht : t.fb.wf) (hb : s.bitPos = t.bitPos)
    (h : ∀ x y, s.pixel x y = t.pixel x y) : s.fb = t.fb := by
  refine Memory.ext_of_wf hs ht fun a => BitVec.eq_of_getLsbD_eq fun k hk => ?_
  obtain ⟨x, y, rfl, hbit⟩ := exists_pixel_place s.bitPos a ⟨k, hk⟩
  have hpixel := h x y
  rw [State.pixel, State.pixel, ← hb, hbit] at hpixel
  exact hpixel

theorem State.wf_foldl_accepted {s : State} (h : s.fb.wf) (is : List Instr) : (is.foldl State.accepted s).fb.wf := by
  induction is generalizing s with
  | nil => exact h
  | cons i is ih => exact ih (State.wf_accepted h i)

theorem State.foldl_accepted_bitPos (s : State) (is : List Instr) :
    (is.foldl State.accepted s).bitPos = s.bitPos := by
  induction is generalizing s with
  | nil => rfl
  | cons i is ih => exact (ih _).trans (s.accepted_bitPos i)

/-- Settles O53: a pixel after WRPIX commands of one colour depends only on which commands are among them. -/
theorem plotOrderDoesNotMatter : Obligations.PlotOrderDoesNotMatter := by
  intro s b is js hwf hidle hplots hperm
  have hplots' : ∀ i ∈ js, IsPlot b i := fun i hi => hplots i (hperm.mem_iff.2 hi)
  have hfb : (is.foldl State.accepted s).fb = (js.foldl State.accepted s).fb := by
    refine State.fb_ext_of_pixel (State.wf_foldl_accepted hwf is) (State.wf_foldl_accepted hwf js)
      ((s.foldl_accepted_bitPos is).trans (s.foldl_accepted_bitPos js).symm) fun x y => ?_
    simp only [pixel_foldl_plots hplots, pixel_foldl_plots hplots', hperm.mem_iff]
  refine ⟨_, execAll_plots (fun i hi => ⟨b, hplots i hi⟩) hidle, ?_⟩
  rw [execAll_plots (fun i hi => ⟨b, hplots' i hi⟩) hidle, foldl_plots_frame (fun i hi => ⟨b, hplots i hi⟩), hfb,
    ← foldl_plots_frame (fun i hi => ⟨b, hplots' i hi⟩)]

/-! RECT (R140 to R142). -/

/-- A WRPIX names pixel `(i, j)`, out of range operands naming none. -/
theorem wrpix_coord_eq_iff (i j : Coord) (x y : Byte) (c b : Bool) :
    Instr.wrpix (BitVec.ofNat 8 i.val) (BitVec.ofNat 8 j.val) c = .wrpix x y b ↔
      (x.toNat = i.val ∧ y.toNat = j.val) ∧ c = b := by
  rw [Instr.wrpix.injEq, ← BitVec.toNat_inj, ← BitVec.toNat_inj, coord_ofNat, coord_ofNat, and_assoc,
    eq_comm (a := i.val), eq_comm (a := j.val)]

/-- A plot of natural coordinates below 256 names the pixel they are. -/
theorem wrpix_coord_eq_plot_iff {x y : Nat} (hx : x < 256) (hy : y < 256) (i j : Coord) (c b : Bool) :
    Instr.wrpix (BitVec.ofNat 8 i.val) (BitVec.ofNat 8 j.val) c = plot x y b ↔ (x = i.val ∧ y = j.val) ∧ c = b := by
  rw [plot, wrpix_coord_eq_iff, BitVec.toNat_ofNat, BitVec.toNat_ofNat, Nat.mod_eq_of_lt hx, Nat.mod_eq_of_lt hy]

theorem mem_forRange {a b n : Nat} : n ∈ forRange a b ↔ a ≤ n ∧ n < b := by
  rw [forRange, List.mem_range'_1]
  omega

/-- One loop of RECT runs along an axis from `p`, for `n` places, and plots in each turn on the near edge, at `q` of the
other axis, and on the far edge, at `q + m - 1`, when it is inside the panel. `t` names the pixel at `u` and `v` of the
two axes. -/
theorem mem_rectLoop_iff {t : Instr} {u v p q n m : Nat} {near far : Nat → Instr} (hu : u < 128) (hv : v < 128)
    (hnear : ∀ a < 128, t = near a ↔ u = a ∧ v = q)
    (hfar : q + m - 1 < 128 → ∀ a < 128, t = far a ↔ u = a ∧ v = q + m - 1) :
    t ∈ (forRange p (min (p + n) 128)).flatMap
        (fun a => near a :: (if m ≥ 1 ∧ q + m - 1 < 128 then [far a] else [])) ↔
      p ≤ u ∧ u < p + n ∧ (v = q ∨ (1 ≤ m ∧ v = q + m - 1)) := by
  simp only [List.mem_flatMap, mem_forRange, List.mem_cons]
  constructor
  · rintro ⟨a, ha, ht⟩
    have ha128 : a < 128 := by omega
    rw [hnear a ha128] at ht
    split at ht
    · next hin =>
      rw [List.mem_singleton, hfar hin.2 a ha128] at ht
      omega
    · rw [List.mem_nil_iff, or_false] at ht
      omega
  · rintro ⟨hp, hn, hq⟩
    refine ⟨u, by omega, ?_⟩
    rw [hnear u hu]
    refine hq.imp (fun hq => ⟨rfl, hq⟩) fun ⟨hm, hq⟩ => ?_
    have hin : q + m - 1 < 128 := hq ▸ hv
    rw [if_pos ⟨hm, hin⟩, List.mem_singleton]
    exact (hfar hin u hu).2 ⟨rfl, hq⟩

/-- The pixels RECT's commands name: those of its four edges inside the panel. -/
theorem mem_rect_iff (x y w h : Nat) (i j : Coord) :
    Instr.wrpix (BitVec.ofNat 8 i.val) (BitVec.ofNat 8 j.val) true ∈ rect x y w h ↔
      x < 128 ∧ y < 128 ∧
        ((x ≤ i.val ∧ i.val < x + w ∧ (j.val = y ∨ (1 ≤ h ∧ j.val = y + h - 1))) ∨
         (y ≤ j.val ∧ j.val < y + h ∧ (i.val = x ∨ (1 ≤ w ∧ i.val = x + w - 1)))) := by
  have hplot {a b : Nat} (ha : a < 128) (hb : b < 128) :
      Instr.wrpix (BitVec.ofNat 8 i.val) (BitVec.ofNat 8 j.val) true = plot a b true ↔ i.val = a ∧ j.val = b := by
    rw [wrpix_coord_eq_plot_iff (by omega) (by omega)]
    simp [eq_comm]
  unfold rect
  split
  · next hout =>
    rw [List.mem_nil_iff, false_iff]
    omega
  · next hin =>
    obtain ⟨hx, hy⟩ : x < 128 ∧ y < 128 := by omega
    have hrows := mem_rectLoop_iff (p := x) (n := w) (near := fun a => plot a y true)
      (far := fun a => plot a (y + h - 1) true) i.isLt j.isLt (fun a ha => hplot ha hy) fun hb a ha => hplot ha hb
    have hcols := mem_rectLoop_iff (p := y) (n := h) (near := fun b => plot x b true)
      (far := fun b => plot (x + w - 1) b true) j.isLt i.isLt (fun b hb => (hplot hx hb).trans and_comm)
      fun ha b hb => (hplot ha hb).trans and_comm
    rw [List.mem_append, hrows, hcols]
    simp only [hx, hy, true_and]

theorem isPlot_of_mem_rect {x y w h : Nat} {t : Instr} (ht : t ∈ rect x y w h) : IsPlot true t := by
  unfold rect at ht
  split at ht
  · cases ht
  · simp only [List.mem_append, List.mem_flatMap, List.mem_cons] at ht
    obtain ⟨a, -, rfl | ht⟩ | ⟨a, -, rfl | ht⟩ := ht
    · exact ⟨_, _, rfl⟩
    · split at ht
      · exact ⟨_, _, List.mem_singleton.1 ht⟩
      · cases ht
    · exact ⟨_, _, rfl⟩
    · split at ht
      · exact ⟨_, _, List.mem_singleton.1 ht⟩
      · cases ht

/-- Settles O54: RECT's commands are plots of one colour, and `mem_rect_iff` says which pixels they name. -/
theorem rectBlackensItsEdges : Obligations.RectBlackensItsEdges := by
  intro s x y w h hidle _ _ _ _
  have hplots : ∀ t ∈ rect x y w h, ∃ b, IsPlot b t := fun t ht => ⟨true, isPlot_of_mem_rect ht⟩
  refine ⟨_, execAll_plots hplots hidle, foldl_plots_frame hplots s, fun i j => ?_⟩
  rw [pixel_foldl_plots (fun t ht => isPlot_of_mem_rect ht)]
  simp only [mem_rect_iff, Bool.not_true]

/-- Settles O55: with the far edges inside the panel, the edges of `mem_rect_iff` are the perimeter. -/
theorem rectDrawsItsPerimeter : Obligations.RectDrawsItsPerimeter := by
  intro x y w h i j hw hh hx hy
  rw [mem_rect_iff]
  omega

/-! CIRCLE (R150 to R153). -/

/-- What CIRCLE's loop keeps: `dx` and `dy` are odd numbers that follow `x` and `y`, and `err` says how far the point is
outside radius `r` (R150). -/
structure CircleVars.OnLoop (r : Int) (v : CircleVars) : Prop where
  dx : v.dx = 2 * (r - v.x) - 1
  dy : v.dy = 2 * v.y + 1
  err : v.err = v.x ^ 2 + v.y ^ 2 - r ^ 2
  right : v.x ≤ r - 1
  up : 0 ≤ v.y

/-- The bounds of R153 on `err`: the point is between radius `r - 1` and radius `r`. -/
def CircleVars.Near (r : Int) (v : CircleVars) : Prop := 1 - 2 * r ≤ v.err ∧ v.err ≤ 0

theorem circleStart_onLoop (r : Int) : (circleStart r).OnLoop r := by
  constructor <;> simp only [circleStart]
  · omega
  · omega
  · ring
  · omega
  · omega

/-- The first test of an iteration keeps `OnLoop`. -/
theorem CircleVars.OnLoop.first {r : Int} {v : CircleVars} (h : v.OnLoop r) : (circleFirst v).OnLoop r := by
  obtain ⟨hdx, hdy, herr, hright, hup⟩ := h
  unfold circleFirst
  split
  · refine ⟨hdx, ?_, ?_, hright, ?_⟩ <;> simp only
    · omega
    · rw [herr, hdy]; ring
    · omega
  · exact ⟨hdx, hdy, herr, hright, hup⟩

/-- The second test of an iteration keeps `OnLoop`. -/
theorem CircleVars.OnLoop.second {r : Int} {v : CircleVars} (h : v.OnLoop r) : (circleSecond r v).OnLoop r := by
  obtain ⟨hdx, hdy, herr, hright, hup⟩ := h
  unfold circleSecond
  split
  · refine ⟨?_, hdy, ?_, ?_, hup⟩ <;> simp only
    · omega
    · rw [herr, hdx]; ring
    · omega
  · exact ⟨hdx, hdy, herr, hright, hup⟩

/-- One iteration keeps the point between the two radii, if the loop goes on. -/
theorem CircleVars.Near.next {r : Int} {v : CircleVars} (hloop : v.OnLoop r) (hnear : v.Near r)
    (hgo : (circleNext r v).x ≥ (circleNext r v).y) : (circleNext r v).Near r := by
  obtain ⟨hdx, hdy, -, hright, hup⟩ := hloop
  obtain ⟨hlow, hhigh⟩ := hnear
  revert hgo
  unfold circleNext circleFirst circleSecond CircleVars.Near
  rw [if_pos hhigh]
  simp only
  split
  · simp only
    omega
  · simp only
    omega

/-- What holds at the loop's first test that passes, and again at each next one, holds at every test that passes. -/
theorem circleStates_forall {r : Int} {P : CircleVars → Prop}
    (hnext : ∀ v, P v → (circleNext r v).x ≥ (circleNext r v).y → P (circleNext r v)) (n : Nat) {u v : CircleVars}
    (hu : u.x ≥ u.y → P u) (hv : v ∈ circleStates r n u) : P v := by
  induction n generalizing u with
  | zero => cases hv
  | succ n ih =>
    rw [circleStates] at hv
    split at hv
    · next hgo =>
      rcases List.mem_cons.1 hv with rfl | hv
      · exact hu hgo
      · exact ih (hnext u (hu hgo)) hv
    · cases hv

/-- The point `(u, v)`, seen from the centre, is one of the 8 reflections of the loop's point. -/
def CircleVars.Reflects (c : CircleVars) (u v : Int) : Prop :=
  ((u = c.x ∨ u = -c.x) ∧ (v = c.y ∨ v = -c.y)) ∨ ((u = c.y ∨ u = -c.y) ∧ (v = c.x ∨ v = -c.x))

theorem mem_circlePoints_iff (x0 y0 u v : Int) (c : CircleVars) :
    (x0 + u, y0 + v) ∈ circlePoints x0 y0 c ↔ c.Reflects u v := by
  simp only [circlePoints, List.mem_cons, List.not_mem_nil, or_false, Prod.mk.injEq, CircleVars.Reflects]
  omega

theorem mem_circleAllPoints_iff (x0 y0 r : Nat) (u v : Int) :
    ((x0 : Int) + u, (y0 : Int) + v) ∈ circleAllPoints x0 y0 r ↔
      ∃ c ∈ circleStates r r (circleStart r), c.Reflects u v := by
  simp only [circleAllPoints, List.mem_flatMap, mem_circlePoints_iff]

theorem CircleVars.Reflects.sum_sq {c : CircleVars} {u v : Int} (h : c.Reflects u v) :
    u ^ 2 + v ^ 2 = c.x ^ 2 + c.y ^ 2 := by
  obtain ⟨hu, hv⟩ | ⟨hu, hv⟩ := h <;> rw [← sq_eq_sq_iff_eq_or_eq_neg] at hu hv <;> rw [hu, hv]
  exact add_comm _ _

/-- Settles O56: the loop keeps `OnLoop` and `Near`, which bound the point's distance, and reflections keep it. -/
theorem circlePointsLieNearTheRadius : Obligations.CirclePointsLieNearTheRadius := by
  rintro x0 y0 r ⟨a, b⟩ hr _ hp
  rw [← add_sub_cancel (x0 : Int) a, ← add_sub_cancel (y0 : Int) b, mem_circleAllPoints_iff] at hp
  obtain ⟨c, hc, hreflects⟩ := hp
  obtain ⟨hloop, hlow, hhigh⟩ : c.OnLoop r ∧ c.Near r :=
    circleStates_forall (P := fun v => v.OnLoop r ∧ v.Near r)
      (fun _ ⟨hloop, hnear⟩ hgo => ⟨hloop.first.second, hnear.next hloop hgo⟩) r
      (fun _ => ⟨circleStart_onLoop r, by simp only [CircleVars.Near, circleStart]; omega⟩) hc
  rw [hreflects.sum_sq]
  have herr := hloop.err
  constructor <;> linarith [sub_sq (r : Int) 1]

/-- Settles O57: each reflection of a reflection is one of the 8. -/
theorem circleIsSymmetric : Obligations.CircleIsSymmetric := by
  intro x0 y0 r u v h
  simp only [sub_eq_add_neg, mem_circleAllPoints_iff] at h ⊢
  obtain ⟨c, hc, hreflects⟩ := h
  unfold CircleVars.Reflects at hreflects
  refine ⟨⟨c, hc, ?_⟩, ⟨c, hc, ?_⟩, ⟨c, hc, ?_⟩⟩ <;> unfold CircleVars.Reflects <;> omega

/-- Truncation leaves the column or row `i` exactly of the integers that leave remainder `i` by 256 (R152). -/
theorem ofNat_coord_eq_trunc8_iff (i : Coord) (z : Int) : BitVec.ofNat 8 i.val = trunc8 z ↔ z % 256 = i.val := by
  rw [← BitVec.toNat_inj, coord_ofNat, trunc8_toNat]
  omega

theorem mem_circle_iff (x0 y0 r : Nat) (b : Bool) (i j : Coord) :
    Instr.wrpix (BitVec.ofNat 8 i.val) (BitVec.ofNat 8 j.val) b ∈ circle x0 y0 r b ↔
      ∃ px py : Int, (px, py) ∈ circleAllPoints x0 y0 r ∧ px % 256 = i.val ∧ py % 256 = j.val := by
  simp only [circle, List.mem_map, Prod.exists, Instr.wrpix.injEq, and_true, eq_comm (b := BitVec.ofNat 8 _),
    ofNat_coord_eq_trunc8_iff]

/-- Settles O58: CIRCLE's commands are plots of one colour, and `mem_circle_iff` says which pixels they name. -/
theorem circleColoursItsTruncatedPoints : Obligations.CircleColoursItsTruncatedPoints := by
  intro s x0 y0 r b hidle
  have hplot : ∀ t ∈ circle x0 y0 r b, IsPlot b t := by
    intro t ht
    obtain ⟨p, -, rfl⟩ := List.mem_map.1 ht
    exact ⟨_, _, rfl⟩
  have hplots : ∀ t ∈ circle x0 y0 r b, ∃ b, IsPlot b t := fun t ht => ⟨b, hplot t ht⟩
  refine ⟨_, execAll_plots hplots hidle, foldl_plots_frame hplots s, fun i j px py hp hx hy => ?_, fun i j hnone => ?_⟩
  · rw [pixel_foldl_plots hplot, if_pos ((mem_circle_iff x0 y0 r b i j).2 ⟨px, py, hp, hx, hy⟩)]
  · rw [pixel_foldl_plots hplot, if_neg]
    rw [mem_circle_iff]
    rintro ⟨px, py, hp, hxy⟩
    exact hnone px py hp hxy

/-! CHECKER (R160). -/

/-- A pixel after WRPIX commands of any colours, one of which names it, when all that do have colour `b`. -/
theorem pixel_foldl_plots_of_colour {is : List Instr} (hp : ∀ t ∈ is, ∃ b, IsPlot b t) (s : State) (i j : Coord)
    {b : Bool} (hb : ∀ c, Instr.wrpix (BitVec.ofNat 8 i.val) (BitVec.ofNat 8 j.val) c ∈ is → c = b) :
    (is.foldl State.accepted s).pixel i j =
      if Instr.wrpix (BitVec.ofNat 8 i.val) (BitVec.ofNat 8 j.val) b ∈ is then !b else s.pixel i j := by
  induction is generalizing s with
  | nil => simp
  | cons t is ih =>
    obtain ⟨b', x, y, rfl⟩ := hp t List.mem_cons_self
    rw [List.foldl_cons, ih (fun t ht => hp t (List.mem_cons_of_mem _ ht)) _
      (fun c hc => hb c (List.mem_cons_of_mem _ hc)), State.accepted, pixel_writePixel]
    simp only [List.mem_cons, wrpix_coord_eq_iff]
    by_cases hxy : x.toNat = i.val ∧ y.toNat = j.val
    · have hcolour : b' = b := hb b' (List.mem_cons.2 (.inl ((wrpix_coord_eq_iff i j x y b' b').2 ⟨hxy, rfl⟩)))
      simp [hxy, hcolour]
    · simp [hxy]

theorem mem_checker_iff (i j : Coord) (b : Bool) :
    Instr.wrpix (BitVec.ofNat 8 i.val) (BitVec.ofNat 8 j.val) b ∈ checker ↔ b = ((i.val + j.val) % 2 == 0) := by
  simp only [checker, List.mem_flatMap, List.mem_map, mem_forRange]
  constructor
  · rintro ⟨y, hy, x, hx, h⟩
    obtain ⟨⟨rfl, rfl⟩, rfl⟩ := (wrpix_coord_eq_plot_iff (by omega) (by omega) i j b _).1 h.symm
    rfl
  · rintro rfl
    exact ⟨j.val, by omega, i.val, by omega, rfl⟩

theorem isPlot_of_mem_checker {t : Instr} (ht : t ∈ checker) : ∃ b, IsPlot b t := by
  simp only [checker, List.mem_flatMap, List.mem_map] at ht
  obtain ⟨y, -, x, -, rfl⟩ := ht
  exact ⟨_, _, _, rfl⟩

theorem pixel_checker (s : State) (i j : Coord) :
    (checker.foldl State.accepted s).pixel i j = decide ((i.val + j.val) % 2 = 1) := by
  rw [pixel_foldl_plots_of_colour (fun _ => isPlot_of_mem_checker) s i j (fun c hc => (mem_checker_iff i j c).1 hc),
    if_pos ((mem_checker_iff i j _).2 rfl)]
  rcases Nat.mod_two_eq_zero_or_one (i.val + j.val) with h | h <;> simp [h]

/-- Under the default BITPOS bit `k` of byte `c` is the pixel of column `8·c + k` (20_memory.md R52). -/
theorem State.getLsbD_memRead_default {s : State} (hb : s.bitPos = Config.defaultBitPos) (y : Coord) (c : ByteCol)
    (k : Fin 8) : (s.memRead (byteAddr y c)).getLsbD k.val = s.pixel ⟨8 * c.val + k.val, by omega⟩ y := by
  have hbyte : pixelByte ⟨8 * c.val + k.val, by omega⟩ = c := Fin.ext (by simp only [pixelByte]; omega)
  have hbit : (8 * c.val + k.val) % 8 = k.val := by omega
  simp only [State.pixel, pixelAddr, hbyte, pixelBit, hb, bitPosAt_default, hbit]

theorem getLsbD_checker_even (k : Fin 8) : (0xAA#8).getLsbD k.val = decide (k.val % 2 = 1) := by
  revert k
  decide

theorem getLsbD_checker_odd (k : Fin 8) : (0x55#8).getLsbD k.val = decide (k.val % 2 = 0) := by
  revert k
  decide

/-- Settles O59: `pixel_checker`, and under the default BITPOS the bits of a byte are 8 pixels of its row. -/
theorem checkerColoursEveryPixel : Obligations.CheckerColoursEveryPixel := by
  intro s hidle
  refine ⟨_, execAll_plots (fun _ => isPlot_of_mem_checker) hidle, foldl_plots_frame (fun _ => isPlot_of_mem_checker) s,
    pixel_checker s, fun hb y c => BitVec.eq_of_getLsbD_eq fun k hk => ?_⟩
  have hbit := State.getLsbD_memRead_default ((s.foldl_accepted_bitPos checker).trans hb) y c ⟨k, hk⟩
  rw [hbit, pixel_checker]
  split
  · rw [getLsbD_checker_even ⟨k, hk⟩]
    simp only [decide_eq_decide]
    omega
  · rw [getLsbD_checker_odd ⟨k, hk⟩]
    simp only [decide_eq_decide]
    omega

end Sys2Proof.Machine
end
